-- ==== Sys2Proof/Word.lean ====
section
/-! DEFINITION. The words of the machine: a byte, a 16-bit word, the narrower instruction fields, and the names of the
16 registers and the 16 keys. Only types stand here; every helper on them is in Decode.lean or under Machine/. -/

namespace Sys2Proof

/-- One byte: a memory cell, a general register, a timer (00_scope.md R7). -/
abbrev Byte := BitVec 8

/-- A 16-bit word: an instruction, the pc, the index register, a stack slot (00_scope.md R7). -/
abbrev Word := BitVec 16

/-- A 4-bit field of the instruction word (30_encoding.md R100: G, N). -/
abbrev Nibble := BitVec 4

/-- The 12-bit address field NNN of the instruction word (30_encoding.md R100). -/
abbrev Addr := BitVec 12

/-- The number of a general register, V0 to VF; all 16 are valid (10_state.md R30, 30_encoding.md R104). -/
abbrev RegIdx := Fin 16

/-- The number of a logical key, 0x0 to 0xF (10_state.md R45). -/
abbrev Key := Fin 16

end Sys2Proof
end

