-- ==== Sys2Proof/Syntax.lean ====
section
/-! DEFINITION. The instructions: one constructor per row of spec/opcode_table.json (30_encoding.md R108, R113). -/

namespace Sys2Proof

/-- An instruction value. The operands are the fields of its format (30_encoding.md R101); a register field is a
register's number. Two shapes keep bits the instruction ignores, so that the word can be given back whole (log 8):
the Y field of the shifts (R105) and the word of a NOP. -/
inductive Instr where
  /-- 00E0: clear the framebuffer. -/
  | cls
  /-- 00EE: return from a subroutine. -/
  | ret
  /-- 1NNN: jump. -/
  | jp (nnn : Addr)
  /-- 2NNN: call a subroutine. -/
  | call (nnn : Addr)
  /-- 3XNN: skip if V[X] = NN. -/
  | seVxNn (x : RegIdx) (nn : Byte)
  /-- 4XNN: skip if V[X] differs from NN. -/
  | sneVxNn (x : RegIdx) (nn : Byte)
  /-- 5XY0: skip if V[X] = V[Y]. -/
  | seVxVy (x y : RegIdx)
  /-- 9XY0: skip if V[X] differs from V[Y]. -/
  | sneVxVy (x y : RegIdx)
  /-- 6XNN: load an immediate. -/
  | ldVxNn (x : RegIdx) (nn : Byte)
  /-- 7XNN: add an immediate, without a flag. -/
  | addVxNn (x : RegIdx) (nn : Byte)
  /-- 8XY0: copy a register. -/
  | ldVxVy (x y : RegIdx)
  /-- 8XY1: bitwise OR. -/
  | or (x y : RegIdx)
  /-- 8XY2: bitwise AND. -/
  | and (x y : RegIdx)
  /-- 8XY3: bitwise exclusive OR. -/
  | xor (x y : RegIdx)
  /-- 8XY4: add with carry out. -/
  | addVxVy (x y : RegIdx)
  /-- 8XY5: V[X] - V[Y]. -/
  | sub (x y : RegIdx)
  /-- 8XY6: shift right by one; y is the ignored field (R105). -/
  | shr (x y : RegIdx)
  /-- 8XY7: V[Y] - V[X]. -/
  | subn (x y : RegIdx)
  /-- 8XYE: shift left by one; y is the ignored field (R105). -/
  | shl (x y : RegIdx)
  /-- ANNN: load the index register. -/
  | ldI (nnn : Addr)
  /-- BNNN: jump to NNN + V0. -/
  | jpV0 (nnn : Addr)
  /-- CXNN: random byte AND NN. -/
  | rnd (x : RegIdx) (nn : Byte)
  /-- DXYN: draw a sprite n rows high. -/
  | drw (x y : RegIdx) (n : Nibble)
  /-- EX9E: skip if the key in V[X] is pressed. -/
  | skp (x : RegIdx)
  /-- EXA1: skip if the key in V[X] is not pressed. -/
  | sknp (x : RegIdx)
  /-- FX07: read the delay timer. -/
  | ldVxDt (x : RegIdx)
  /-- FX0A: wait for a key press. -/
  | ldVxK (x : RegIdx)
  /-- FX15: set the delay timer. -/
  | ldDtVx (x : RegIdx)
  /-- FX18: set the sound timer. -/
  | ldStVx (x : RegIdx)
  /-- FX1E: add a register to I. -/
  | addIVx (x : RegIdx)
  /-- FX29: point I at the glyph of a digit. -/
  | ldFVx (x : RegIdx)
  /-- FX33: store three decimal digits. -/
  | ldBVx (x : RegIdx)
  /-- FX55: store V0 to V[X]. -/
  | ldMemVx (x : RegIdx)
  /-- FX65: load V0 to V[X]. -/
  | ldVxMem (x : RegIdx)
  /-- Any word that matches no row; w is that word (30_encoding.md R107). -/
  | nop (w : Word)
  deriving DecidableEq, Repr

end Sys2Proof
end

