-- ==== Sys2Proof/Machine/OpcodeMap.lean ====
section
/-! DEFINITION. The opcode map of 30_encoding.md R113 as data: one row per instruction with its mask and match, and
which row a constructor stands for. It is written from the table; the decoder is written from R108. -/

namespace Sys2Proof

/-- A row of the opcode map: a word w is the instruction exactly when w AND mask = value (R113). -/
structure OpcodeRow where
  /-- The constructor name of R113, which the opcode table uses as its mnemonic. -/
  mnemonic : String
  mask : Word
  /-- The column the spec calls Match. -/
  value : Word
  deriving DecidableEq, Repr

/-- Whether a word is the row's instruction (R113). -/
def OpcodeRow.covers (r : OpcodeRow) (w : Word) : Bool := w &&& r.mask == r.value

/-- Groups 0x0 to 0x7 and 0x9, in the table's order. -/
def opcodeMapFlow : List OpcodeRow :=
  [⟨"CLS", 0xFFFF, 0x00E0⟩, ⟨"RET", 0xFFFF, 0x00EE⟩, ⟨"JP", 0xF000, 0x1000⟩, ⟨"CALL", 0xF000, 0x2000⟩,
   ⟨"SE_VX_NN", 0xF000, 0x3000⟩, ⟨"SNE_VX_NN", 0xF000, 0x4000⟩, ⟨"SE_VX_VY", 0xF00F, 0x5000⟩,
   ⟨"SNE_VX_VY", 0xF00F, 0x9000⟩, ⟨"LD_VX_NN", 0xF000, 0x6000⟩, ⟨"ADD_VX_NN", 0xF000, 0x7000⟩]

/-- Group 0x8. -/
def opcodeMapAlu : List OpcodeRow :=
  [⟨"LD_VX_VY", 0xF00F, 0x8000⟩, ⟨"OR", 0xF00F, 0x8001⟩, ⟨"AND", 0xF00F, 0x8002⟩, ⟨"XOR", 0xF00F, 0x8003⟩,
   ⟨"ADD_VX_VY", 0xF00F, 0x8004⟩, ⟨"SUB", 0xF00F, 0x8005⟩, ⟨"SHR", 0xF00F, 0x8006⟩, ⟨"SUBN", 0xF00F, 0x8007⟩,
   ⟨"SHL", 0xF00F, 0x800E⟩]

/-- Groups 0xA to 0xF. -/
def opcodeMapRest : List OpcodeRow :=
  [⟨"LD_I", 0xF000, 0xA000⟩, ⟨"JP_V0", 0xF000, 0xB000⟩, ⟨"RND", 0xF000, 0xC000⟩, ⟨"DRW", 0xF000, 0xD000⟩,
   ⟨"SKP", 0xF0FF, 0xE09E⟩, ⟨"SKNP", 0xF0FF, 0xE0A1⟩, ⟨"LD_VX_DT", 0xF0FF, 0xF007⟩, ⟨"LD_VX_K", 0xF0FF, 0xF00A⟩,
   ⟨"LD_DT_VX", 0xF0FF, 0xF015⟩, ⟨"LD_ST_VX", 0xF0FF, 0xF018⟩, ⟨"ADD_I_VX", 0xF0FF, 0xF01E⟩,
   ⟨"LD_F_VX", 0xF0FF, 0xF029⟩, ⟨"LD_B_VX", 0xF0FF, 0xF033⟩, ⟨"LD_MEM_VX", 0xF0FF, 0xF055⟩,
   ⟨"LD_VX_MEM", 0xF0FF, 0xF065⟩]

/-- The 34 rows of R113. -/
def opcodeMap : List OpcodeRow := opcodeMapFlow ++ opcodeMapAlu ++ opcodeMapRest

/-- Whether some row of the opcode map covers a word; a word none covers is a NOP (R107, R113). -/
def definedWord (w : Word) : Bool := opcodeMap.any (fun r => r.covers w)

/-- The mnemonic of an instruction: its constructor's row (R112, R113); NOP for the fallback row. -/
def Instr.mnemonic : Instr → String
  | .cls => "CLS"
  | .ret => "RET"
  | .jp _ => "JP"
  | .call _ => "CALL"
  | .seVxNn _ _ => "SE_VX_NN"
  | .sneVxNn _ _ => "SNE_VX_NN"
  | .seVxVy _ _ => "SE_VX_VY"
  | .sneVxVy _ _ => "SNE_VX_VY"
  | .ldVxNn _ _ => "LD_VX_NN"
  | .addVxNn _ _ => "ADD_VX_NN"
  | .ldVxVy _ _ => "LD_VX_VY"
  | .or _ _ => "OR"
  | .and _ _ => "AND"
  | .xor _ _ => "XOR"
  | .addVxVy _ _ => "ADD_VX_VY"
  | .sub _ _ => "SUB"
  | .shr _ _ => "SHR"
  | .subn _ _ => "SUBN"
  | .shl _ _ => "SHL"
  | .ldI _ => "LD_I"
  | .jpV0 _ => "JP_V0"
  | .rnd _ _ => "RND"
  | .drw _ _ _ => "DRW"
  | .skp _ => "SKP"
  | .sknp _ => "SKNP"
  | .ldVxDt _ => "LD_VX_DT"
  | .ldVxK _ => "LD_VX_K"
  | .ldDtVx _ => "LD_DT_VX"
  | .ldStVx _ => "LD_ST_VX"
  | .addIVx _ => "ADD_I_VX"
  | .ldFVx _ => "LD_F_VX"
  | .ldBVx _ => "LD_B_VX"
  | .ldMemVx _ => "LD_MEM_VX"
  | .ldVxMem _ => "LD_VX_MEM"
  | .nop _ => "NOP"

end Sys2Proof
end

