-- ==== Sys2Proof/WellFormed.lean ====
section
/-! DEFINITION. Which instruction values are well formed. Every field has the width of its format (30_encoding.md R100),
so the one thing left to check is a NOP's word: it must be a word that no row of the opcode map covers (R107, R113). -/

namespace Sys2Proof

/-- An instruction value some word decodes to: a NOP carries a word of the no-op space, every other value is free. -/
def Instr.wf : Instr → Bool
  | .nop w => !definedWord w
  | .cls | .ret | .jp _ | .call _ | .seVxNn _ _ | .sneVxNn _ _ | .seVxVy _ _ | .sneVxVy _ _ | .ldVxNn _ _
  | .addVxNn _ _ | .ldVxVy _ _ | .or _ _ | .and _ _ | .xor _ _ | .addVxVy _ _ | .sub _ _ | .shr _ _ | .subn _ _
  | .shl _ _ | .ldI _ | .jpV0 _ | .rnd _ _ | .drw _ _ _ | .skp _ | .sknp _ | .ldVxDt _ | .ldVxK _ | .ldDtVx _
  | .ldStVx _ | .addIVx _ | .ldFVx _ | .ldBVx _ | .ldMemVx _ | .ldVxMem _ => true

end Sys2Proof
end

