-- ==== Sys2Proof/Decode.lean ====
section
/-! DEFINITION. The decoder, written from the case table of 30_encoding.md R108, and after it the encoder, written from
the formats and patterns of R101 and R113. -/

namespace Sys2Proof

/-! The fields of the instruction word (30_encoding.md R100). -/

/-- G, op[15:12]: the primary opcode group. -/
def fieldG (op : Word) : Nibble := op.extractLsb' 12 4

/-- X, op[11:8]: a register's number. -/
def fieldX (op : Word) : RegIdx := (op.extractLsb' 8 4).toFin

/-- Y, op[7:4]: a register's number. -/
def fieldY (op : Word) : RegIdx := (op.extractLsb' 4 4).toFin

/-- N, op[3:0]: a 4-bit immediate. -/
def fieldN (op : Word) : Nibble := op.extractLsb' 0 4

/-- NN, op[7:0]: an 8-bit immediate. -/
def fieldNN (op : Word) : Byte := op.extractLsb' 0 8

/-- NNN, op[11:0]: a 12-bit address. -/
def fieldNNN (op : Word) : Addr := op.extractLsb' 0 12

/-! The decoder (30_encoding.md R106-R110). -/

/-- Group 0x0: two whole words, every other word a NOP (R108; conflict C7). -/
def decodeGroup0 (op : Word) : Instr :=
  if op = 0x00E0 then .cls
  else if op = 0x00EE then .ret
  else .nop op

/-- Group 0x8: by the low nibble (R108). -/
def decodeGroup8 (op : Word) : Instr :=
  match (fieldN op).toNat with
  | 0x0 => .ldVxVy (fieldX op) (fieldY op)
  | 0x1 => .or (fieldX op) (fieldY op)
  | 0x2 => .and (fieldX op) (fieldY op)
  | 0x3 => .xor (fieldX op) (fieldY op)
  | 0x4 => .addVxVy (fieldX op) (fieldY op)
  | 0x5 => .sub (fieldX op) (fieldY op)
  | 0x6 => .shr (fieldX op) (fieldY op)
  | 0x7 => .subn (fieldX op) (fieldY op)
  | 0xE => .shl (fieldX op) (fieldY op)
  | _ => .nop op

/-- Group 0xE: by the low byte (R108). -/
def decodeGroupE (op : Word) : Instr :=
  match (fieldNN op).toNat with
  | 0x9E => .skp (fieldX op)
  | 0xA1 => .sknp (fieldX op)
  | _ => .nop op

/-- Group 0xF: by the low byte (R108). -/
def decodeGroupF (op : Word) : Instr :=
  match (fieldNN op).toNat with
  | 0x07 => .ldVxDt (fieldX op)
  | 0x0A => .ldVxK (fieldX op)
  | 0x15 => .ldDtVx (fieldX op)
  | 0x18 => .ldStVx (fieldX op)
  | 0x1E => .addIVx (fieldX op)
  | 0x29 => .ldFVx (fieldX op)
  | 0x33 => .ldBVx (fieldX op)
  | 0x55 => .ldMemVx (fieldX op)
  | 0x65 => .ldVxMem (fieldX op)
  | _ => .nop op

/-- decode of 30_encoding.md R108: total on 16-bit words; no word is illegal (R109). -/
def decodeWord (op : Word) : Instr :=
  match (fieldG op).toNat with
  | 0x0 => decodeGroup0 op
  | 0x1 => .jp (fieldNNN op)
  | 0x2 => .call (fieldNNN op)
  | 0x3 => .seVxNn (fieldX op) (fieldNN op)
  | 0x4 => .sneVxNn (fieldX op) (fieldNN op)
  | 0x5 => if (fieldN op).toNat = 0 then .seVxVy (fieldX op) (fieldY op) else .nop op
  | 0x6 => .ldVxNn (fieldX op) (fieldNN op)
  | 0x7 => .addVxNn (fieldX op) (fieldNN op)
  | 0x8 => decodeGroup8 op
  | 0x9 => if (fieldN op).toNat = 0 then .sneVxVy (fieldX op) (fieldY op) else .nop op
  | 0xA => .ldI (fieldNNN op)
  | 0xB => .jpV0 (fieldNNN op)
  | 0xC => .rnd (fieldX op) (fieldNN op)
  | 0xD => .drw (fieldX op) (fieldY op) (fieldN op)
  | 0xE => decodeGroupE op
  | _ => decodeGroupF op  -- G = 0xF, the one value of the nibble left

/-- Why a list of bytes decodes to nothing. No word is refused (R109); only an instruction cut short is. -/
inductive DecodeError where
  /-- Fewer than the 2 bytes of an instruction (30_encoding.md R102). -/
  | truncated
  deriving DecidableEq, Repr

/-- The instruction word of two bytes, big-endian: the first is bits 15-8 (20_memory.md R77; D4, log 2). -/
def wordOfBytes (hi lo : Byte) : Word := hi ++ lo

/-- The byte at the lower address: bits 15-8 of the word (R77). -/
def highByte (w : Word) : Byte := w.extractLsb' 8 8

/-- The byte at the higher address: bits 7-0 of the word (R77). -/
def lowByte (w : Word) : Byte := w.extractLsb' 0 8

/-- Decoding of bytes as they lie in memory: one instruction and the bytes after it. -/
def decode : List Byte → Except DecodeError (Instr × List Byte)
  | hi :: lo :: rest => .ok (decodeWord (wordOfBytes hi lo), rest)
  | [_] => .error .truncated
  | [] => .error .truncated

/-- The bytes, lowest address first, of the instruction whose table bits are w: bits from nbits up are 0. -/
def tableBytes (nbits w : Nat) : List Byte :=
  let op : Word := BitVec.ofNat 16 (w % 2 ^ nbits)
  [highByte op, lowByte op]

/-- The instruction the decoder reads from table bits w (the host's fixed name). -/
def decodeTableWord (nbits w : Nat) : Option Instr :=
  match decode (tableBytes nbits w) with
  | .ok (i, _) => some i
  | .error _ => none

/-! The encoder: the formats of 30_encoding.md R101. -/

/-- A register's number as the 4 bits of its field (R100, R104). -/
def regBits (x : RegIdx) : Nibble := BitVec.ofFin x

/-- Format FA: G NNN. -/
def formA (g : Nibble) (nnn : Addr) : Word := g ++ nnn

/-- Formats FXNN (byte operand) and FXF (fixed function byte): G X NN. -/
def formXNN (g : Nibble) (x : RegIdx) (nn : Byte) : Word := g ++ regBits x ++ nn

/-- Formats FXY (fixed function nibble) and FXYN (count): G X Y N. -/
def formXYN (g : Nibble) (x y : RegIdx) (n : Nibble) : Word := g ++ regBits x ++ regBits y ++ n

/-- The word of an instruction (the patterns of R113). -/
def encode : Instr → Word
  | .cls => 0x00E0
  | .ret => 0x00EE
  | .jp nnn => formA 0x1 nnn
  | .call nnn => formA 0x2 nnn
  | .seVxNn x nn => formXNN 0x3 x nn
  | .sneVxNn x nn => formXNN 0x4 x nn
  | .seVxVy x y => formXYN 0x5 x y 0x0
  | .sneVxVy x y => formXYN 0x9 x y 0x0
  | .ldVxNn x nn => formXNN 0x6 x nn
  | .addVxNn x nn => formXNN 0x7 x nn
  | .ldVxVy x y => formXYN 0x8 x y 0x0
  | .or x y => formXYN 0x8 x y 0x1
  | .and x y => formXYN 0x8 x y 0x2
  | .xor x y => formXYN 0x8 x y 0x3
  | .addVxVy x y => formXYN 0x8 x y 0x4
  | .sub x y => formXYN 0x8 x y 0x5
  | .shr x y => formXYN 0x8 x y 0x6
  | .subn x y => formXYN 0x8 x y 0x7
  | .shl x y => formXYN 0x8 x y 0xE
  | .ldI nnn => formA 0xA nnn
  | .jpV0 nnn => formA 0xB nnn
  | .rnd x nn => formXNN 0xC x nn
  | .drw x y n => formXYN 0xD x y n
  | .skp x => formXNN 0xE x 0x9E
  | .sknp x => formXNN 0xE x 0xA1
  | .ldVxDt x => formXNN 0xF x 0x07
  | .ldVxK x => formXNN 0xF x 0x0A
  | .ldDtVx x => formXNN 0xF x 0x15
  | .ldStVx x => formXNN 0xF x 0x18
  | .addIVx x => formXNN 0xF x 0x1E
  | .ldFVx x => formXNN 0xF x 0x29
  | .ldBVx x => formXNN 0xF x 0x33
  | .ldMemVx x => formXNN 0xF x 0x55
  | .ldVxMem x => formXNN 0xF x 0x65
  | .nop w => w

end Sys2Proof
end

