-- ==== Sys2Proof/Config.lean ====
section
/-! DEFINITION. What is fixed for the machine: the numbers of 00_scope.md R7, the two named parameters a model takes
(FONT and VF_ALIAS_MODE, 92_eei_decisions.md), and the one free value (the random byte, decision D21). -/

namespace Sys2Proof

/-- MEM_SIZE: the bytes of memory, addresses 0x000 to 0xFFF (00_scope.md R7, 20_memory.md R70). -/
def Config.memSize : Nat := 4096

/-- PROG_START: where LOAD puts a program and where it enters it (00_scope.md R7). -/
def Config.progStart : Nat := 0x200

/-- MAX_IMAGE: the largest program image, 0x200 to 0xFFF (00_scope.md R7, conflict C6, decision D20). -/
def Config.maxImage : Nat := 3584

/-- STACK_DEPTH: the number of stack slots (00_scope.md R7). -/
def Config.stackDepth : Nat := 16

/-- The bytes at 0x000-0x04F after reset: 16 glyphs of 5 bytes (20_memory.md R74, R75). -/
abbrev Font := Vector Byte 80

/-- VF_ALIAS_MODE: how 8XY5, 8XY6, 8XY7 and 8XYE read V[X] and V[Y] after they wrote VF (decision D3). -/
inductive VfAliasMode where
  /-- Each statement reads the state the earlier ones left: the default, 42_alu.md R203. -/
  | sequential
  /-- V[X] and V[Y] are read once, before any write; the order of the writes is the same. -/
  | snapshot
  deriving DecidableEq, Repr

/-- The named parameters a model takes as arguments (92_eei_decisions.md): State carries them and nothing writes them,
so a statement over every state holds for every FONT and both alias modes (logs 1 and 3). -/
structure Params where
  /-- FONT, 80 bytes (decision D16). -/
  font : Font
  /-- VF_ALIAS_MODE (decision D3). -/
  vfAliasMode : VfAliasMode
  deriving DecidableEq, Repr

/-- FREE VALUE (log 4): the byte on the RANDOM_BYTE input at the n-th execution of CXNN. It has no body: the spec
admits every byte and no relation between draws (00_scope.md R14, 60_exceptions.md R387, decision D21). -/
opaque Config.randomByte : Nat → Byte

end Sys2Proof
end

