-- ==== Sys2Proof/Machine/Params.lean ====
section
/-! DEFINITION. The default values of the named parameters and the reset value of the pc. -/

namespace Sys2Proof.Machine

/-- The default FONT of 20_memory.md R75, glyphs 0 to F, 5 bytes each. PRESUMED (log 1): the spec itself supplies these
bytes from general knowledge (K1, decision D16). -/
def defaultFont : Font :=
  #v[0xF0, 0x90, 0x90, 0x90, 0xF0,
     0x20, 0x60, 0x20, 0x20, 0x70,
     0xF0, 0x10, 0xF0, 0x80, 0xF0,
     0xF0, 0x10, 0xF0, 0x10, 0xF0,
     0x90, 0x90, 0xF0, 0x10, 0x10,
     0xF0, 0x80, 0xF0, 0x10, 0xF0,
     0xF0, 0x80, 0xF0, 0x90, 0xF0,
     0xF0, 0x10, 0x20, 0x40, 0x40,
     0xF0, 0x90, 0xF0, 0x90, 0xF0,
     0xF0, 0x90, 0xF0, 0x10, 0xF0,
     0xF0, 0x90, 0xF0, 0x90, 0x90,
     0xE0, 0x90, 0xE0, 0x90, 0xE0,
     0xF0, 0x80, 0x80, 0x80, 0xF0,
     0xE0, 0x90, 0x90, 0x90, 0xE0,
     0xF0, 0x80, 0xF0, 0x80, 0xF0,
     0xF0, 0x80, 0xF0, 0x80, 0x80]

/-- The parameters a machine has unless a run says otherwise: the default FONT and SEQUENTIAL (decisions D16, D3). -/
def defaultParams : Params := { font := defaultFont, vfAliasMode := .sequential }

/-- The pc after reset (10_state.md R51; decision D19): 0x0000, until LOAD sets it. -/
def resetPc : Word := 0x0000

end Sys2Proof.Machine
end

