-- ==== Sys2Proof/Machine/State.lean ====
section
/-! DEFINITION. The state of the machine (10_state.md), all of it plain data, its value after reset, and the reasons a
step or a port can stop. -/

namespace Sys2Proof.Machine

/-- The kinds of fault the core raises (60_exceptions.md R350). -/
inductive FaultCode where
  /-- Code 1: an access to an address >= 4096. -/
  | memOutOfBounds
  /-- Code 2: 2NNN with 16 calls outstanding. -/
  | stackOverflow
  /-- Code 3: 00EE with an empty stack. -/
  | stackUnderflow
  /-- Code 4: EX9E or EXA1 with V[X] > 15. -/
  | keyIndexOutOfRange
  deriving DecidableEq, Repr

/-- The record a fault leaves (10_state.md R42). -/
structure FaultRecord where
  code : FaultCode
  /-- The address of the instruction whose step faulted. -/
  pc : Word
  /-- The instruction word; none when the fetch itself faulted. -/
  opcode : Option Word
  /-- The first out-of-range address, or the offending key value; none for the stack faults. -/
  info : Option Word
  deriving DecidableEq, Repr

/-- The execution status (10_state.md R41). -/
inductive Status where
  /-- The step port executes instructions. -/
  | run
  /-- FX0A waits for a key-down event, which will write V[x]. -/
  | waitKey (x : RegIdx)
  /-- A fatal error stopped the core; only reset leaves this status. -/
  | fault (r : FaultRecord)
  deriving DecidableEq, Repr

/-- Memory: the (address, byte) cells that differ from the reset contents, in rising address order (Ops.lean holds the
operations and the form). -/
abbrev Memory := List Host.Cell

/-- The framebuffer (10_state.md R44): 32 rows of 64 pixels; the pixel at column x and row y is entry x of row y. -/
abbrev Framebuffer := Vector (Vector Bool 64) 32

/-- The state: every piece the spec gives the machine (10_state.md R30-R51), then the two fields that are the model's
own (params, draws). -/
structure State where
  /-- V[0] to V[15]; VF = V[15] is also the flag register (R30, R31). -/
  v : Vector Byte 16
  /-- I, the index register (R43). -/
  i : Word
  /-- The program counter (R33). -/
  pc : Word
  /-- SP: the number of occupied stack slots, 0 to 16 (R39; log 9). -/
  sp : Fin 17
  /-- The return stack (R40). -/
  stack : Vector Word 16
  /-- DT, the delay timer (R37). -/
  dt : Byte
  /-- ST, the sound timer (R38). -/
  st : Byte
  /-- The 4096 bytes of memory (20_memory.md R70). -/
  mem : Memory
  /-- The framebuffer (R44). -/
  fb : Framebuffer
  /-- key[0] to key[15], true when pressed (R45). -/
  keys : Vector Bool 16
  /-- The execution status (R41). -/
  status : Status
  /-- The MODEL's own: the named parameters FONT and VF_ALIAS_MODE (logs 1 and 3). -/
  params : Params
  /-- The MODEL's own: how many random bytes CXNN has taken (log 4). -/
  draws : Nat
  deriving DecidableEq, Repr

/-- The interface's stops with a fault. There is none: the spec describes the entry of each of its faults whole
(40_pipeline.md R137), so a meaning takes it and answers a next state whose status is FAULT (log 5). -/
inductive Fault where
  deriving DecidableEq, Repr

/-- The interface's refusals. -/
inductive Refusal where
  /-- Raised by exec for an instruction without a meaning; every instruction has one, so no arm raises it. Safe. -/
  | notModelled (mnemonic : String)
  /-- Raised by the LOAD port for an image over 3584 bytes: the block refuses it, with no state change (60_exceptions.md
  R382, decision D20). Safe: the host must not offer one (R391). -/
  | imageTooLarge
  /-- Raised by the PIXEL_AT port for a query outside 64 x 32 (60_exceptions.md R388, decision D22). Safe: the host must
  not issue one (R391). -/
  | pixelOutOfRange
  deriving DecidableEq, Repr

/-- The state right after reset (10_state.md R51, 70_reset_and_hazards.md R400): all zero, memory at its reset contents,
status RUN, with the default parameters. -/
def State.reset : State :=
  { v := Vector.replicate 16 0
    i := 0
    pc := resetPc
    sp := 0
    stack := Vector.replicate 16 0
    dt := 0
    st := 0
    mem := []
    fb := Vector.replicate 32 (Vector.replicate 64 false)
    keys := Vector.replicate 16 false
    status := .run
    params := defaultParams
    draws := 0 }

end Sys2Proof.Machine
end

