-- ==== Sys2Proof/Machine/Ops.lean ====
section
/-! DEFINITION. The named operations over memory, registers, stack and pc, the checked accesses of 00_scope.md R12, and
TAKING A FAULT as one shared operation (R13, 40_pipeline.md R137). There is no return from a fault (60_exceptions.md
R356): only the RESET port leaves one (Ports.lean). -/

namespace Sys2Proof.Machine

/-! Memory: a list of the cells that differ from the reset contents. -/

/-- What an address with no cell reads as: the reset contents, FONT at 0x000-0x04F and 0 above (20_memory.md R75,
10_state.md R51). -/
def Memory.unlisted (font : Font) (a : Nat) : Byte := if h : a < 80 then font[a] else 0

/-- The byte at an address. -/
def Memory.read (font : Font) : Memory → Nat → Byte
  | [], a => Memory.unlisted font a
  | (k, b) :: m, a => if k = a then b else Memory.read font m a

/-- The cells with the cell of an address taken out. -/
def Memory.erase : Memory → Nat → Memory
  | [], _ => []
  | (k, b) :: m, a => if k = a then m else (k, b) :: Memory.erase m a

/-- The cells with the cell of an address set, in address order. -/
def Memory.insert : Memory → Nat → Byte → Memory
  | [], a, b => [(a, b)]
  | (k, c) :: m, a, b =>
    if a < k then (a, b) :: (k, c) :: m
    else if a = k then (a, b) :: m
    else (k, c) :: Memory.insert m a b

/-- Writing a byte: writing what an unlisted address reads as removes the cell, so that equal memories are equal data. -/
def Memory.write (font : Font) (m : Memory) (a : Nat) (b : Byte) : Memory :=
  if b = Memory.unlisted font a then Memory.erase m a else Memory.insert m a b

/-- The canonical form: addresses strictly rising and inside memory, no cell equal to what an unlisted address reads
as. -/
abbrev Memory.wf (font : Font) (m : Memory) : Prop :=
  m.Pairwise (fun c d => c.1 < d.1) ∧ ∀ c ∈ m, c.1 < Config.memSize ∧ c.2 ≠ Memory.unlisted font c.1

/-- mem[a], unchecked: the model's read of one byte. -/
def State.readByte (s : State) (a : Nat) : Byte := Memory.read s.params.font s.mem a

/-- mem[a] <- b, unchecked. -/
def State.writeByte (s : State) (a : Nat) (b : Byte) : State :=
  { s with mem := Memory.write s.params.font s.mem a b }

/-- Bytes written at ascending addresses, unchecked. -/
def State.writeBytes (s : State) (a : Nat) : List Byte → State
  | [] => s
  | b :: bs => (s.writeByte a b).writeBytes (a + 1) bs

/-! Faults. -/

/-- What `raise Fault(kind, info)` carries (00_scope.md R13). -/
structure Raise where
  code : FaultCode
  info : Option Word
  deriving DecidableEq, Repr

/-- The fault code as the 3-bit number of 60_exceptions.md R350. -/
def FaultCode.number : FaultCode → BitVec 3
  | .memOutOfBounds => 1
  | .stackOverflow => 2
  | .stackUnderflow => 3
  | .keyIndexOutOfRange => 4

/-- TAKING A FAULT, from the state s before the step (00_scope.md R13, 40_pipeline.md R137, 60_exceptions.md R354): every
piece of state keeps its value, the pc included, and status becomes FAULT with the record of 10_state.md R42. -/
def State.takeFault (s : State) (opcode : Option Word) (e : Raise) : State :=
  { s with status := .fault { code := e.code, pc := s.pc, opcode := opcode, info := e.info } }

/-- The end of a step whose execute phase gave r: commit every write (40_pipeline.md R136), or abort to the state s
before the step and take the fault (R137). op is the instruction word. -/
def complete (op : Word) (s : State) (r : Except Raise State) : Host.Outcome State Fault Refusal :=
  match r with
  | .ok s' => .next s'
  | .error e => .next (s.takeFault (some op) e)

/-! Checked accesses (00_scope.md R12, 20_memory.md R72). -/

/-- The first address >= 4096 among a, a+1, ..., a+n-1, looked for in ascending order; no address is wrapped (D10). -/
def firstOutOfRange (a : Nat) : Nat → Option Nat
  | 0 => none
  | n + 1 => if a < Config.memSize then firstOutOfRange (a + 1) n else some a

/-- The range check of an access of n bytes at a. -/
def checkRange (a n : Nat) : Except Raise Unit :=
  match firstOutOfRange a n with
  | none => .ok ()
  | some b => .error { code := .memOutOfBounds, info := some (BitVec.ofNat 16 b) }

/-- MemRead(a, n), as the list of the n bytes, lowest address first. -/
def State.memRead (s : State) (a n : Nat) : Except Raise (List Byte) :=
  match checkRange a n with
  | .ok _ => .ok ((List.range n).map (fun k => s.readByte (a + k)))
  | .error e => .error e

/-- MemWrite of a list of bytes, lowest address first: a failing check writes nothing. -/
def State.memWrite (s : State) (a : Nat) (bytes : List Byte) : Except Raise State :=
  match checkRange a bytes.length with
  | .ok _ => .ok (s.writeBytes a bytes)
  | .error e => .error e

/-! Registers. -/

/-- V[x]. -/
def State.reg (s : State) (x : RegIdx) : Byte := s.v[x]

/-- V[x] <- b. -/
def State.setReg (s : State) (x : RegIdx) (b : Byte) : State := { s with v := s.v.set x b }

/-- The number of VF, the flag register (10_state.md R31). -/
def vf : RegIdx := 15

/-- V[k] <- b for successive registers from k on. -/
def State.setRegs (s : State) (k : Nat) : List Byte → State
  | [] => s
  | b :: bs => (s.setReg (Fin.ofNat 16 k) b).setRegs (k + 1) bs

/-! The program counter and the stack. -/

/-- The pc advance of fetch: pc <- (pc + 2) mod 2^16 (40_pipeline.md R133). -/
def State.advance (s : State) : State := { s with pc := s.pc + 2 }

/-- A taken skip: pc <- (pc + 2) mod 2^16 once more, whatever word lies there (41_control_flow.md R160). -/
def State.skip (s : State) : State := { s with pc := s.pc + 2 }

/-- Skip if a condition holds (R160). -/
def State.skipIf (s : State) (c : Bool) : State := if c then s.skip else s

/-- Push a return address: SP = 16 is checked before anything is written (R162; D9, conflict C8). -/
def State.push (s : State) (w : Word) : Except Raise State :=
  if h : s.sp.val < 16 then
    .ok { s with stack := s.stack.set s.sp.val w h, sp := ⟨s.sp.val + 1, by omega⟩ }
  else .error { code := .stackOverflow, info := none }

/-- Pop a return address into the pc: SP <- SP - 1, then pc <- stack[SP]; the slot keeps its value (R163; D9). -/
def State.popPc (s : State) : Except Raise State :=
  if h : s.sp.val = 0 then .error { code := .stackUnderflow, info := none }
  else .ok { s with sp := ⟨s.sp.val - 1, by omega⟩, pc := s.stack[s.sp.val - 1] }

/-! Fetch. -/

/-- Fetch: MemRead(pc, 2), big-endian (40_pipeline.md R132, 20_memory.md R77). -/
def State.fetch (s : State) : Except Raise Word :=
  match checkRange s.pc.toNat 2 with
  | .ok _ => .ok (wordOfBytes (s.readByte s.pc.toNat) (s.readByte (s.pc.toNat + 1)))
  | .error e => .error e

/-- An address the fetch can read two bytes at: the pc where it can, PROG_START where it cannot. -/
def State.fetchable (s : State) : Word :=
  if s.pc.toNat + 1 < Config.memSize then s.pc else BitVec.ofNat 16 Config.progStart

/-- s with the bytes placed where the next step fetches: the status is RUN, and the pc stays unless nothing can be
fetched there (log 7). -/
def State.placeForFetch (s : State) (bytes : List Byte) : State :=
  { s with status := .run, pc := s.fetchable }.writeBytes s.fetchable.toNat bytes

end Sys2Proof.Machine
end

