-- ==== Sys2Proof/Machine/Operands.lean ====
section
/-! DEFINITION. The operand forms: immediates (30_encoding.md R103), the index addressing mode (43_index_memory.md R256),
the register block of FX55 and FX65 (30_encoding.md R104), the decimal digits of FX33, the glyph address of FX29 and the
key number of EX9E and EXA1. -/

namespace Sys2Proof.Machine

/-- zext_16(NNN) (R103). -/
def zext16 (nnn : Addr) : Word := nnn.setWidth 16

/-- BNNN's target: (zext_16(NNN) + V[0]) mod 2^16 (41_control_flow.md R168). -/
def jumpTarget (nnn : Addr) (v0 : Byte) : Word := zext16 nnn + v0.setWidth 16

/-- FX1E's sum: (I + V[X]) mod 2^16 (43_index_memory.md R251; D10). -/
def indexSum (i : Word) (b : Byte) : Word := i + b.setWidth 16

/-- FX29's glyph address: V[X] * 5, not masked (43_index_memory.md R252; D11). It is at most 1275. -/
def glyphAddress (b : Byte) : Word := BitVec.ofNat 16 (b.toNat * 5)

/-- The address of byte k of an access: the natural number I + k, never wrapped (R256; D10). -/
def State.effAddr (s : State) (k : Nat) : Nat := s.i.toNat + k

/-- V[0] to V[x], x + 1 bytes in ascending order: the register block of FX55 (R104). -/
def State.regBlock (s : State) (x : RegIdx) : List Byte :=
  (List.range (x.val + 1)).map (fun k => s.reg (Fin.ofNat 16 k))

/-- The decimal digits of a byte: hundreds, tens, units (43_index_memory.md R253). -/
def decimalDigits (b : Byte) : List Byte :=
  [BitVec.ofNat 8 (b.toNat / 100), BitVec.ofNat 8 (b.toNat / 10 % 10), BitVec.ofNat 8 (b.toNat % 10)]

/-- The logical key a register names; a value over 15 raises KEY_INDEX_OUT_OF_RANGE with that value (45_timers_keypad.md
R321, R322; D13). -/
def keyOfByte (b : Byte) : Except Raise Key :=
  if h : b.toNat < 16 then .ok ⟨b.toNat, h⟩
  else .error { code := .keyIndexOutOfRange, info := some (b.setWidth 16) }

/-- key[k]: whether key k is pressed now (R320). -/
def State.keyPressed (s : State) (k : Key) : Bool := s.keys[k]

end Sys2Proof.Machine
end

