-- ==== Sys2Proof/Machine/Flags.lean ====
section
/-! DEFINITION. The ALU as a function (42_alu.md R200-R202), its flag results, and the write-back of result and flag in
the order of R203, under either value of VF_ALIAS_MODE (decision D3). -/

namespace Sys2Proof.Machine

/-- The operations of the ALU (R201). -/
inductive AluOp where
  | pass | addnc | or | and | xor | add | sub | shr | subn | shl | randand
  deriving DecidableEq, Repr

/-- The 8-bit result r of the ALU on operands a and b and the random byte rb (R201); BitVec arithmetic wraps mod 256. -/
def aluResult (op : AluOp) (a b rb : Byte) : Byte :=
  match op with
  | .pass => b
  | .addnc => a + b
  | .or => a ||| b
  | .and => a &&& b
  | .xor => a ^^^ b
  | .add => a + b
  | .sub => a - b
  | .shr => a >>> 1
  | .subn => b - a
  | .shl => a <<< 1
  | .randand => rb &&& b

/-- The 1-bit flag f of the ALU, for the operations that make one (R201, R202): the carry out, the strict comparisons,
the bit shifted out. -/
def aluFlag (op : AluOp) (a b : Byte) : Option Bool :=
  match op with
  | .add => some (decide (a.toNat + b.toNat > 255))
  | .sub => some (decide (a.toNat > b.toNat))
  | .shr => some (a.getLsbD 0)
  | .subn => some (decide (b.toNat > a.toNat))
  | .shl => some (a.getLsbD 7)
  | .pass | .addnc | .or | .and | .xor | .randand => none

/-- A flag as the byte stored in VF: 1 or 0 (00_scope.md R10 bool; 44_display.md R295, D18). -/
def flagByte (f : Bool) : Byte := if f then 1 else 0

/-- V[F] <- f, where the operation makes a flag. -/
def State.writeFlag (s : State) (f : Option Bool) : State :=
  match f with
  | some f => s.setReg vf (flagByte f)
  | none => s

/-- Write-back, result first: the order of 8XY4, and of the operations without a flag (R203). -/
def State.aluResultFirst (s : State) (op : AluOp) (x : RegIdx) (a b rb : Byte) : State :=
  (s.setReg x (aluResult op a b rb)).writeFlag (aluFlag op a b)

/-- Write-back, flag first: the order of 8XY5, 8XY6, 8XY7 and 8XYE (R203). The second statement reads V[X] and V[Y]
after VF was written (SEQUENTIAL) or as they were before any write (SNAPSHOT, D3). -/
def State.aluFlagFirst (s : State) (op : AluOp) (x y : RegIdx) : State :=
  let s1 := s.writeFlag (aluFlag op (s.reg x) (s.reg y))
  let operands := match s.params.vfAliasMode with
    | .sequential => s1
    | .snapshot => s
  s1.setReg x (aluResult op (operands.reg x) (operands.reg y) 0)

end Sys2Proof.Machine
end

