-- ==== Sys2Proof/Machine/Alu.lean ====
section
/-! DEFINITION. The ALU instructions (42_alu.md section 2). None raises a fault. -/

namespace Sys2Proof.Machine

/-- 6XNN (R210). -/
def execLdVxNn (x : RegIdx) (nn : Byte) (s : State) : Host.Outcome State Fault Refusal :=
  .next (s.advance.aluResultFirst .pass x (s.reg x) nn 0)

/-- 7XNN (R211): no flag. -/
def execAddVxNn (x : RegIdx) (nn : Byte) (s : State) : Host.Outcome State Fault Refusal :=
  .next (s.advance.aluResultFirst .addnc x (s.reg x) nn 0)

/-- 8XY0 (R212). -/
def execLdVxVy (x y : RegIdx) (s : State) : Host.Outcome State Fault Refusal :=
  .next (s.advance.aluResultFirst .pass x (s.reg x) (s.reg y) 0)

/-- 8XY1 (R213): VF is not reset. -/
def execOr (x y : RegIdx) (s : State) : Host.Outcome State Fault Refusal :=
  .next (s.advance.aluResultFirst .or x (s.reg x) (s.reg y) 0)

/-- 8XY2 (R214): VF is not reset. -/
def execAnd (x y : RegIdx) (s : State) : Host.Outcome State Fault Refusal :=
  .next (s.advance.aluResultFirst .and x (s.reg x) (s.reg y) 0)

/-- 8XY3 (R215): VF is not reset. -/
def execXor (x y : RegIdx) (s : State) : Host.Outcome State Fault Refusal :=
  .next (s.advance.aluResultFirst .xor x (s.reg x) (s.reg y) 0)

/-- 8XY4 (R216): the sum first, the carry last. -/
def execAddVxVy (x y : RegIdx) (s : State) : Host.Outcome State Fault Refusal :=
  .next (s.advance.aluResultFirst .add x (s.reg x) (s.reg y) 0)

/-- 8XY5 (R217): the flag first, then the difference. -/
def execSub (x y : RegIdx) (s : State) : Host.Outcome State Fault Refusal :=
  .next (s.advance.aluFlagFirst .sub x y)

/-- 8XY6 (R218, D24): V[X] alone is shifted; the Y field is ignored, so V[X] stands for both operands. -/
def execShr (x _y : RegIdx) (s : State) : Host.Outcome State Fault Refusal :=
  .next (s.advance.aluFlagFirst .shr x x)

/-- 8XY7 (R219): the flag first, then the difference. -/
def execSubn (x y : RegIdx) (s : State) : Host.Outcome State Fault Refusal :=
  .next (s.advance.aluFlagFirst .subn x y)

/-- 8XYE (R220, conflict C3, D24): the flag is bit 7; the Y field is ignored. -/
def execShl (x _y : RegIdx) (s : State) : Host.Outcome State Fault Refusal :=
  .next (s.advance.aluFlagFirst .shl x x)

/-- CXNN (R221): V[X] <- rb AND NN, where rb is a free value; the counter of draws moves on (log 4). -/
def execRnd (x : RegIdx) (nn : Byte) (s : State) : Host.Outcome State Fault Refusal :=
  .next ({ s.advance with draws := s.draws + 1 }.aluResultFirst .randand x (s.reg x) nn (Config.randomByte s.draws))

end Sys2Proof.Machine
end

