-- ==== Sys2Proof/Machine/ControlFlow.lean ====
section
/-! DEFINITION. Control transfer and skips (41_control_flow.md), and NOP (40_pipeline.md R138). Every meaning starts from
the state s before the step, with pc = a; s.advance is the state the execute phase sees, with pc = a + 2 (40_pipeline.md
R133; log 6). -/

namespace Sys2Proof.Machine

/-- 1NNN (R161). -/
def execJp (nnn : Addr) (s : State) : Host.Outcome State Fault Refusal :=
  .next { s.advance with pc := zext16 nnn }

/-- 2NNN (R162): push a + 2, then jump; STACK_OVERFLOW when SP = 16. -/
def execCall (nnn : Addr) (s : State) : Host.Outcome State Fault Refusal :=
  complete (encode (.call nnn)) s <|
    match s.advance.push s.advance.pc with
    | .ok s1 => .ok { s1 with pc := zext16 nnn }
    | .error e => .error e

/-- 00EE (R163): pop into the pc; STACK_UNDERFLOW when SP = 0. -/
def execRet (s : State) : Host.Outcome State Fault Refusal :=
  complete (encode .ret) s s.advance.popPc

/-- 3XNN (R164). -/
def execSeVxNn (x : RegIdx) (nn : Byte) (s : State) : Host.Outcome State Fault Refusal :=
  .next (s.advance.skipIf (s.reg x == nn))

/-- 4XNN (R165). -/
def execSneVxNn (x : RegIdx) (nn : Byte) (s : State) : Host.Outcome State Fault Refusal :=
  .next (s.advance.skipIf (s.reg x != nn))

/-- 5XY0 (R166). -/
def execSeVxVy (x y : RegIdx) (s : State) : Host.Outcome State Fault Refusal :=
  .next (s.advance.skipIf (s.reg x == s.reg y))

/-- 9XY0 (R167). -/
def execSneVxVy (x y : RegIdx) (s : State) : Host.Outcome State Fault Refusal :=
  .next (s.advance.skipIf (s.reg x != s.reg y))

/-- BNNN (R168): the register is V[0], whatever bits 11-8 are. -/
def execJpV0 (nnn : Addr) (s : State) : Host.Outcome State Fault Refusal :=
  .next { s.advance with pc := jumpTarget nnn (s.reg 0) }

/-- NOP (40_pipeline.md R138, D25): only the pc advance, whatever the word. -/
def execNop (_w : Word) (s : State) : Host.Outcome State Fault Refusal :=
  .next s.advance

end Sys2Proof.Machine
end

