-- ==== Sys2Proof/Machine/Display.lean ====
section
/-! DEFINITION. The framebuffer, the XOR-sprite blitter with its collision detector, and the instructions 00E0 and DXYN
(44_display.md). -/

namespace Sys2Proof.Machine

/-- fb[x][y] (10_state.md R44). -/
def Framebuffer.pixel (fb : Framebuffer) (x : Fin 64) (y : Fin 32) : Bool := fb[y][x]

/-- fb[x][y] <- b. -/
def Framebuffer.setPixel (fb : Framebuffer) (x : Fin 64) (y : Fin 32) (b : Bool) : Framebuffer :=
  fb.set y (fb[y].set x b)

/-- Every pixel clear (R291). -/
def Framebuffer.blank : Framebuffer := Vector.replicate 32 (Vector.replicate 64 false)

/-- The blitter's working state: the framebuffer and the collision flag c (R292). -/
structure Blit where
  fb : Framebuffer
  c : Bool
  deriving DecidableEq, Repr

/-- The column a sprite column lands on: (x0 + col) mod 64 (R293). -/
def blitColumn (x0 : Byte) (col : Nat) : Fin 64 := Fin.ofNat 64 (x0.toNat + col)

/-- The row a sprite row lands on: (y0 + r) mod 32 (R293). -/
def blitRow (y0 : Byte) (r : Nat) : Fin 32 := Fin.ofNat 32 (y0.toNat + r)

/-- Flip one pixel; a pixel that was set raises the collision (R294, R295). -/
def Blit.flip (b : Blit) (x : Fin 64) (y : Fin 32) : Blit :=
  { fb := b.fb.setPixel x y (!b.fb.pixel x y), c := b.c || b.fb.pixel x y }

/-- One sprite bit: column col of row r, the most significant bit leftmost (R294). -/
def Blit.bit (x0 y0 : Byte) (r : Nat) (row : Byte) (b : Blit) (col : Nat) : Blit :=
  if row.getLsbD (7 - col) then b.flip (blitColumn x0 col) (blitRow y0 r) else b

/-- One sprite row: its 8 columns in order (R292). -/
def Blit.row (x0 y0 : Byte) (r : Nat) (row : Byte) (b : Blit) : Blit :=
  [0, 1, 2, 3, 4, 5, 6, 7].foldl (Blit.bit x0 y0 r row) b

/-- The rows of a sprite from row r on (R292). -/
def Blit.rows (x0 y0 : Byte) : Nat → List Byte → Blit → Blit
  | _, [], b => b
  | r, row :: rows, b => Blit.rows x0 y0 (r + 1) rows (Blit.row x0 y0 r row b)

/-- Draw a sprite at (x0, y0): every row in order, c from 0 (R292). -/
def blit (fb : Framebuffer) (x0 y0 : Byte) (rows : List Byte) : Blit :=
  Blit.rows x0 y0 0 rows { fb := fb, c := false }

/-- 00E0 (R291): VF is unchanged. -/
def execCls (s : State) : Host.Outcome State Fault Refusal :=
  .next { s.advance with fb := Framebuffer.blank }

/-- DXYN (R292): the coordinates are read before VF is written, all n sprite bytes are read and checked before anything
is drawn (R298), and VF is written last (R295). -/
def execDrw (x y : RegIdx) (n : Nibble) (s : State) : Host.Outcome State Fault Refusal :=
  complete (encode (.drw x y n)) s <|
    match s.advance.memRead (s.effAddr 0) n.toNat with
    | .ok rows =>
      let out := blit s.fb (s.reg x) (s.reg y) rows
      .ok ({ s.advance with fb := out.fb }.setReg vf (flagByte out.c))
    | .error e => .error e

end Sys2Proof.Machine
end

