-- ==== Sys2Proof/Machine/Index.lean ====
section
/-! DEFINITION. The index register and memory transfer (43_index_memory.md). An access is checked whole before any byte
moves; a failing one takes MEM_OUT_OF_BOUNDS and leaves no trace (R253-R256, 40_pipeline.md R137). -/

namespace Sys2Proof.Machine

/-- ANNN (R250). -/
def execLdI (nnn : Addr) (s : State) : Host.Outcome State Fault Refusal :=
  .next { s.advance with i := zext16 nnn }

/-- FX1E (R251): mod 2^16, no flag, no range check. -/
def execAddIVx (x : RegIdx) (s : State) : Host.Outcome State Fault Refusal :=
  .next { s.advance with i := indexSum s.i (s.reg x) }

/-- FX29 (R252). -/
def execLdFVx (x : RegIdx) (s : State) : Host.Outcome State Fault Refusal :=
  .next { s.advance with i := glyphAddress (s.reg x) }

/-- FX33 (R253). -/
def execLdBVx (x : RegIdx) (s : State) : Host.Outcome State Fault Refusal :=
  complete (encode (.ldBVx x)) s (s.advance.memWrite (s.effAddr 0) (decimalDigits (s.reg x)))

/-- FX55 (R254): I is not changed. -/
def execLdMemVx (x : RegIdx) (s : State) : Host.Outcome State Fault Refusal :=
  complete (encode (.ldMemVx x)) s (s.advance.memWrite (s.effAddr 0) (s.regBlock x))

/-- FX65 (R255): I is not changed. -/
def execLdVxMem (x : RegIdx) (s : State) : Host.Outcome State Fault Refusal :=
  complete (encode (.ldVxMem x)) s <|
    match s.advance.memRead (s.effAddr 0) (x.val + 1) with
    | .ok bytes => .ok (s.advance.setRegs 0 bytes)
    | .error e => .error e

end Sys2Proof.Machine
end

