-- ==== Sys2Proof/Machine/Keypad.lean ====
section
/-! DEFINITION. The timer, keypad and key-wait instructions (45_timers_keypad.md section 2). -/

namespace Sys2Proof.Machine

/-- EX9E (R321): the key state is not changed. -/
def execSkp (x : RegIdx) (s : State) : Host.Outcome State Fault Refusal :=
  complete (encode (.skp x)) s <|
    match keyOfByte (s.reg x) with
    | .ok k => .ok (s.advance.skipIf (s.keyPressed k))
    | .error e => .error e

/-- EXA1 (R322). -/
def execSknp (x : RegIdx) (s : State) : Host.Outcome State Fault Refusal :=
  complete (encode (.sknp x)) s <|
    match keyOfByte (s.reg x) with
    | .ok k => .ok (s.advance.skipIf (!s.keyPressed k))
    | .error e => .error e

/-- FX07 (R323). -/
def execLdVxDt (x : RegIdx) (s : State) : Host.Outcome State Fault Refusal :=
  .next (s.advance.setReg x s.dt)

/-- FX0A (R324, D14): suspend; the key-down that ends the wait writes V[X] (the KEY_DOWN port, R328). -/
def execLdVxK (x : RegIdx) (s : State) : Host.Outcome State Fault Refusal :=
  .next { s.advance with status := .waitKey x }

/-- FX15 (R325). -/
def execLdDtVx (x : RegIdx) (s : State) : Host.Outcome State Fault Refusal :=
  .next { s.advance with dt := s.reg x }

/-- FX18 (R326). -/
def execLdStVx (x : RegIdx) (s : State) : Host.Outcome State Fault Refusal :=
  .next { s.advance with st := s.reg x }

end Sys2Proof.Machine
end

