-- ==== Sys2Proof/Machine/Step.lean ====
section
/-! DEFINITION. One step of the core, the function of 40_pipeline.md R143: guard, fetch, decode, execute. -/

namespace Sys2Proof.Machine

/-- STEP (R143). The guard lets only RUN execute (R131); a failing fetch takes MEM_OUT_OF_BOUNDS with no opcode (R132);
otherwise the decoded instruction is executed. exec starts from the state before the pc advance and holds the advance
and the commit or abort of R133, R136 and R137 (log 6). -/
def step (s : State) : Host.Outcome State Fault Refusal :=
  match s.status with
  | .run =>
    match s.fetch with
    | .ok op => exec (decodeWord op) s
    | .error e => .next (s.takeFault none e)
  | .waitKey _ => .next s
  | .fault _ => .next s

/-- s with an instruction placed where step fetches its next one (the host's fixed name; log 7). -/
def State.withFetchWord (s : State) (nbits w : Nat) : State := s.placeForFetch (tableBytes nbits w)

end Sys2Proof.Machine
end

