-- ==== Sys2Proof/Machine/Ports.lean ====
section
/-! DEFINITION. The host's ports (60_exceptions.md R380-R392). STEP is Machine.step; the other inputs are functions of the
state, and the host issues them between steps in any order (40_pipeline.md R142; log 10). -/

namespace Sys2Proof.Machine

/-- RESET (R381, 70_reset_and_hazards.md R400): every piece of state at its reset value, in every status. The machine
keeps its parameters, so memory's reset contents are its own FONT; the counter of random draws goes on, since no relation
between a draw before and a draw after may be assumed (log 4). -/
def portReset (s : State) : State := { State.reset with params := s.params, draws := s.draws }

/-- LOAD(img) (R382, R392): ignored in FAULT; refused over 3584 bytes; else the image at 0x200 and pc <- 0x200. -/
def portLoad (img : List Byte) (s : State) : Host.Outcome State Fault Refusal :=
  match s.status with
  | .fault _ => .next s
  | .run | .waitKey _ =>
    if img.length > Config.maxImage then .refused .imageTooLarge
    else .next { s.writeBytes Config.progStart img with pc := BitVec.ofNat 16 Config.progStart }

/-- A timer's tick: decrement unless zero (45_timers_keypad.md R327). -/
def tickTimer (t : Byte) : Byte := if t = 0 then 0 else t - 1

/-- TICK (R384, R327): both timers in the same tick, only when the status is RUN (D15). -/
def portTick (s : State) : State :=
  match s.status with
  | .run => { s with dt := tickTimer s.dt, st := tickTimer s.st }
  | .waitKey _ => s
  | .fault _ => s

/-- KEY_DOWN(k) (R385, R328): key[k] <- 1, and a wait ends with V[x] <- k; ignored in FAULT (D14, D23). -/
def portKeyDown (k : Key) (s : State) : State :=
  match s.status with
  | .run => { s with keys := s.keys.set k true }
  | .waitKey x => { s with keys := s.keys.set k true, status := .run }.setReg x (BitVec.ofNat 8 k.val)
  | .fault _ => s

/-- KEY_UP(k) (R386, R329): key[k] <- 0; ignored in FAULT (D23). -/
def portKeyUp (k : Key) (s : State) : State :=
  match s.status with
  | .run | .waitKey _ => { s with keys := s.keys.set k false }
  | .fault _ => s

/-- PIXEL_AT(x, y) (R388, D22): fb[x][y], refused outside 64 x 32; it changes nothing. -/
def portPixelAt (x y : Nat) (s : State) : Except Refusal Bool :=
  if h : x < 64 ∧ y < 32 then .ok (Framebuffer.pixel s.fb ⟨x, h.1⟩ ⟨y, h.2⟩) else .error .pixelOutOfRange

/-- STATUS (R390): the current status. STEP's result is the status after the step (R383). -/
def portStatus (s : State) : Status := s.status

/-- What INSPECT shows (R389): the whole state the spec gives the machine. -/
structure Inspection where
  v : Vector Byte 16
  i : Word
  pc : Word
  sp : Fin 17
  stack : Vector Word 16
  dt : Byte
  st : Byte
  /-- The 4096 bytes of memory, in address order. -/
  mem : List Byte
  fb : Framebuffer
  keys : Vector Bool 16
  status : Status
  deriving DecidableEq, Repr

/-- INSPECT (R389): it may be issued in any status and changes nothing. -/
def portInspect (s : State) : Inspection :=
  { v := s.v, i := s.i, pc := s.pc, sp := s.sp, stack := s.stack, dt := s.dt, st := s.st,
    mem := (List.range Config.memSize).map s.readByte, fb := s.fb, keys := s.keys, status := s.status }

/-- The transactions the host can issue between steps, and STEP itself (R380). -/
inductive Transaction where
  | reset
  | load (img : List Byte)
  | step
  | tick
  | keyDown (k : Key)
  | keyUp (k : Key)
  deriving DecidableEq, Repr

/-- One transaction. -/
def transact (t : Transaction) (s : State) : Host.Outcome State Fault Refusal :=
  match t with
  | .reset => .next (portReset s)
  | .load img => portLoad img s
  | .step => step s
  | .tick => .next (portTick s)
  | .keyDown k => .next (portKeyDown k s)
  | .keyUp k => .next (portKeyUp k s)

end Sys2Proof.Machine
end

