-- ==== Sys2Proof/Safety.lean ====
section
/-! DEFINITION. The terms claims are stated in: what a transition leaves unchanged (40_pipeline.md R140), which registers
and which parts an instruction may write (10_state.md R32, R34, R36, R40, R43-R45), and the invariant of the machine. -/

namespace Sys2Proof.Machine

/-- The parts of the state beside the general registers, the pc, memory and the parameters. -/
inductive Part where
  | index | sp | stack | dt | st | fb | keys | status | draws
  deriving DecidableEq, Repr

/-- A part has the same value in two states. -/
def Part.Same (p : Part) (s t : State) : Prop :=
  match p with
  | .index => t.i = s.i
  | .sp => t.sp = s.sp
  | .stack => t.stack = s.stack
  | .dt => t.dt = s.dt
  | .st => t.st = s.st
  | .fb => t.fb = s.fb
  | .keys => t.keys = s.keys
  | .status => t.status = s.status
  | .draws => t.draws = s.draws

/-- From s to t no register but those listed, no part but those listed and no parameter changed; the pc and memory are
spoken of apart. -/
structure Frame (regs : List RegIdx) (parts : List Part) (s t : State) : Prop where
  regs_same : ∀ k, k ∉ regs → t.reg k = s.reg k
  parts_same : ∀ p, p ∉ parts → p.Same s t
  params_same : t.params = s.params

/-- Every byte of memory reads as before. -/
def MemSame (s t : State) : Prop := ∀ a, t.readByte a = s.readByte a

/-- Every byte outside the n bytes at a reads as before. -/
def MemSameOutside (a n : Nat) (s t : State) : Prop := ∀ b, b < a ∨ a + n ≤ b → t.readByte b = s.readByte b

/-- The instruction COMPLETES from s: exec answers a next state t, the pc is two up, no register and no part but those
listed and no byte of memory changed, and t is as P says. (pc + 2 is the advance of fetch, 40_pipeline.md R133.) -/
def Completes (i : Instr) (s : State) (regs : List RegIdx) (parts : List Part) (P : State → Prop) : Prop :=
  ∃ t, exec i s = .next t ∧ t.pc = s.pc + 2 ∧ Frame regs parts s t ∧ MemSame s t ∧ P t

/-- The instruction completes as a SKIP from s: exec answers a next state that differs from s in the pc alone, which is
four up if c holds and two up if not (41_control_flow.md R160, R164-R167). -/
def CompletesSkip (i : Instr) (s : State) (c : Prop) : Prop :=
  ∃ t, exec i s = .next t ∧ (c → t.pc = s.pc + 4) ∧ (¬c → t.pc = s.pc + 2) ∧ Frame [] [] s t ∧ MemSame s t

/-- The instruction FAULTS from s with MEM_OUT_OF_BOUNDS: exec answers a next state whose status is FAULT, with code
MEM_OUT_OF_BOUNDS and, as info, the address in I where that is out of range and 0x1000 where it is not; no register, no
pixel and no byte of memory changed. -/
def MemFaults (i : Instr) (s : State) : Prop :=
  ∃ t r a, exec i s = .next t ∧ t.status = .fault r ∧ r.code = .memOutOfBounds ∧ r.info = some a ∧
    a.toNat = (if 4096 ≤ s.i.toNat then s.i.toNat else 0x1000) ∧
    (∀ k, t.reg k = s.reg k) ∧ t.fb = s.fb ∧ MemSame s t

/-- In RUN with pc >= 0xFFF the next step FAULTS in its fetch: nothing changes but the status; the record has no opcode, and
its info is the pc where that is out of range and 0x1000 where only pc + 1 is. -/
def FetchFaultsFrom (s : State) : Prop :=
  s.status = .run → 0xFFF ≤ s.pc.toNat →
    ∃ a : Word, a.toNat = max s.pc.toNat 0x1000 ∧
      step s = .next { s with status := .fault { code := .memOutOfBounds, pc := s.pc, opcode := none, info := some a } }

/-- Every word with these fixed bits decodes to this instruction: an Encoding line of the spec (mask and match). -/
def RowDecodes (mask value : Word) (i : Word → Instr) : Prop := ∀ w, w &&& mask = value → decodeWord w = i w

/-- V[0] to V[x], as numbers of registers. -/
def regsUpTo (x : RegIdx) : List RegIdx := (List.finRange 16).filter (fun k => k ≤ x)

/-- The general registers an instruction may write: the Writes column of 10_state.md R32. -/
def regsWritten : Instr → List RegIdx
  | .ldVxNn x _ | .addVxNn x _ | .ldVxVy x _ | .or x _ | .and x _ | .xor x _ | .rnd x _ | .ldVxDt x => [x]
  | .addVxVy x _ | .sub x _ | .shr x _ | .subn x _ | .shl x _ => [x, vf]
  | .drw _ _ _ => [vf]
  | .ldVxMem x => regsUpTo x
  | .cls | .ret | .jp _ | .call _ | .seVxNn _ _ | .sneVxNn _ _ | .seVxVy _ _ | .sneVxVy _ _ | .ldI _ | .jpV0 _
  | .skp _ | .sknp _ | .ldVxK _ | .ldDtVx _ | .ldStVx _ | .addIVx _ | .ldFVx _ | .ldBVx _ | .ldMemVx _ | .nop _ => []

/-- The other parts an instruction may write (10_state.md R36, R40, R43, R44); status where it can fault or wait. -/
def partsWritten : Instr → List Part
  | .cls => [.fb]
  | .drw _ _ _ => [.fb, .status]
  | .call _ => [.stack, .sp, .status]
  | .ret => [.sp, .status]
  | .ldI _ | .addIVx _ | .ldFVx _ => [.index]
  | .ldDtVx _ => [.dt]
  | .ldStVx _ => [.st]
  | .rnd _ _ => [.draws]
  | .skp _ | .sknp _ | .ldVxK _ | .ldBVx _ | .ldMemVx _ | .ldVxMem _ => [.status]
  | .jp _ | .seVxNn _ _ | .sneVxNn _ _ | .seVxVy _ _ | .sneVxVy _ _ | .ldVxNn _ _ | .addVxNn _ _ | .ldVxVy _ _
  | .or _ _ | .and _ _ | .xor _ _ | .addVxVy _ _ | .sub _ _ | .shr _ _ | .subn _ _ | .shl _ _ | .jpV0 _ | .ldVxDt _
  | .nop _ => []

/-- How many bytes an instruction may store, from the address in I on (20_memory.md R71). -/
def bytesStored : Instr → Nat
  | .ldBVx _ => 3
  | .ldMemVx x => x.val + 1
  | .cls | .ret | .jp _ | .call _ | .seVxNn _ _ | .sneVxNn _ _ | .seVxVy _ _ | .sneVxVy _ _ | .ldVxNn _ _
  | .addVxNn _ _ | .ldVxVy _ _ | .or _ _ | .and _ _ | .xor _ _ | .addVxVy _ _ | .sub _ _ | .shr _ _ | .subn _ _
  | .shl _ _ | .ldI _ | .jpV0 _ | .rnd _ _ | .drw _ _ _ | .skp _ | .sknp _ | .ldVxDt _ | .ldVxK _ | .ldDtVx _
  | .ldStVx _ | .addIVx _ | .ldFVx _ | .ldVxMem _ | .nop _ => 0

/-- The fault an instruction can raise in its execute phase: the table of 60_exceptions.md R357. -/
def faultOf : Instr → Option FaultCode
  | .call _ => some .stackOverflow
  | .ret => some .stackUnderflow
  | .skp _ | .sknp _ => some .keyIndexOutOfRange
  | .drw _ _ n => if n = 0 then none else some .memOutOfBounds
  | .ldBVx _ | .ldMemVx _ | .ldVxMem _ => some .memOutOfBounds
  | .cls | .jp _ | .seVxNn _ _ | .sneVxNn _ _ | .seVxVy _ _ | .sneVxVy _ _ | .ldVxNn _ _ | .addVxNn _ _ | .ldVxVy _ _
  | .or _ _ | .and _ _ | .xor _ _ | .addVxVy _ _ | .sub _ _ | .shr _ _ | .subn _ _ | .shl _ _ | .ldI _ | .jpV0 _
  | .rnd _ _ | .ldVxDt _ | .ldVxK _ | .ldDtVx _ | .ldStVx _ | .addIVx _ | .ldFVx _ | .nop _ => none

/-- Sprite bit (r, col) of the sprite at I: bit 7 - col of the byte at I + r (44_display.md R294). -/
def State.spriteBit (s : State) (r col : Nat) : Bool := (s.readByte (s.i.toNat + r)).getLsbD (7 - col)

/-- The pixel that sprite pixel (r, col) lands on when drawn at (x0, y0), before the draw (R293). -/
def State.pixelUnder (s : State) (x0 y0 : Byte) (r col : Nat) : Bool :=
  s.fb.pixel (Fin.ofNat 64 (x0.toNat + col)) (Fin.ofNat 32 (y0.toNat + r))

/-- The value VF holds for a flag that is set when c holds: 1 or 0. -/
def FlagIs (c : Prop) (b : Byte) : Prop := (c → b = 1) ∧ (¬c → b = 0)

/-- Two states are the same but for the stack slots at and above SP (10_state.md R48). -/
def SameButFreeSlots (s t : State) : Prop :=
  t = { s with stack := t.stack } ∧ ∀ k : Fin 16, k.val < s.sp.val → t.stack[k] = s.stack[k]

/-- Memory is in canonical form. -/
def State.MemWf (s : State) : Prop := Memory.wf s.params.font s.mem

/-- The pc and every return address stay in the range decision D5 names: at most 0x10FE, and 0x1000 on the stack. -/
def State.PcBounded (s : State) : Prop := s.pc.toNat ≤ 0x10FE ∧ ∀ k : Fin 16, s.stack[k].toNat ≤ 0x1000

/-- What a fault record says of the state it was taken in, for an instruction word that was fetched (60_exceptions.md
R350, R357; 10_state.md R42). -/
def State.RecordFits (s : State) (w : Word) (r : FaultRecord) : Prop :=
  faultOf (decodeWord w) = some r.code ∧
  match r.code with
  | .memOutOfBounds => ∃ a, r.info = some a ∧ a.toNat = max s.i.toNat 0x1000
  | .stackOverflow => s.sp = 16 ∧ r.info = none
  | .stackUnderflow => s.sp = 0 ∧ r.info = none
  | .keyIndexOutOfRange =>
    ∃ x, (decodeWord w = .skp x ∨ decodeWord w = .sknp x) ∧ 16 ≤ (s.reg x).toNat ∧ r.info = some ((s.reg x).setWidth 16)

/-- In FAULT the record describes the frozen state (60_exceptions.md R354, R392): its pc is the pc, and its opcode is
the word the pc points at, or none where that fetch faults. -/
def State.FaultConsistent (s : State) : Prop :=
  match s.status with
  | .fault r =>
    r.pc = s.pc ∧
    match r.opcode with
    | none => r.code = .memOutOfBounds ∧ 0xFFF ≤ s.pc.toNat ∧ ∃ a, r.info = some a ∧ a.toNat = max s.pc.toNat 0x1000
    | some w => s.fetch = .ok w ∧ s.RecordFits w r
  | .run | .waitKey _ => True

/-- The invariant of the machine. -/
structure State.Inv (s : State) : Prop where
  memWf : s.MemWf
  pcBounded : s.PcBounded
  faultConsistent : s.FaultConsistent

end Sys2Proof.Machine
end

