-- ==== Sys2Proof/Certificates/Slice0/Obligations.lean ====
section
/-! DEFINITION. The statements for the provers, one per def Obligations.<Name>; OBLIGATIONS.json lists them. Where a
statement rests on a decision the spec marks as its own, its docstring names that decision (92_eei_decisions.md). -/

open Sys2Proof Sys2Proof.Machine

/-! Encoding. -/

/-- Words written out bit by bit from the patterns of 30_encoding.md R113, one or two of each family, decode to the
instruction they stand for; words of the no-op space decode to NOP (95_test_vectors.md section 2.1). -/
def Obligations.SampleWordsDecode : Prop :=
  decodeWord 0b0000000011100000 = .cls ∧ decodeWord 0b0000000011101110 = .ret ∧
  decodeWord 0b0001101010111100 = .jp 0xABC ∧ decodeWord 0b0101000100100000 = .seVxVy 1 2 ∧
  decodeWord 0b0101000100100001 = .nop 0x5121 ∧ decodeWord 0b0110101000101011 = .ldVxNn 0xA 0x2B ∧
  decodeWord 0b1000101010110110 = .shr 0xA 0xB ∧ decodeWord 0b1000101010111000 = .nop 0x8AB8 ∧
  decodeWord 0b1101000100100101 = .drw 1 2 5 ∧ decodeWord 0b1110000110011110 = .skp 1 ∧
  decodeWord 0b1111000100101001 = .ldFVx 1 ∧ decodeWord 0b1111001001010101 = .ldMemVx 2 ∧
  decodeWord 0b0000000111100000 = .nop 0x01E0

/-- The six fields of the instruction word are the bit ranges 30_encoding.md R100 gives, each bit at its place. -/
def Obligations.FieldsAreBitRanges : Prop :=
  ∀ op : Word,
    (∀ k < 4, (fieldG op).getLsbD k = op.getLsbD (12 + k)) ∧ (∀ k < 4, (fieldX op).val.testBit k = op.getLsbD (8 + k)) ∧
    (∀ k < 4, (fieldY op).val.testBit k = op.getLsbD (4 + k)) ∧ (∀ k < 4, (fieldN op).getLsbD k = op.getLsbD k) ∧
    (∀ k < 8, (fieldNN op).getLsbD k = op.getLsbD k) ∧ (∀ k < 12, (fieldNNN op).getLsbD k = op.getLsbD k)

/-- Decoding the word of any well-formed instruction gives that instruction, every operand at every value. -/
def Obligations.DecodeOfEncodeIsIdentity : Prop := ∀ i : Instr, i.wf = true → decodeWord (encode i) = i

/-- Every word decodes to a well-formed instruction whose word it is: no bit of any word is dropped, and two words never
share an instruction value. (The values keep the bits an instruction ignores: log 8.) -/
def Obligations.EncodeOfDecodeIsIdentity : Prop :=
  ∀ w : Word, (decodeWord w).wf = true ∧ encode (decodeWord w) = w

/-- The case table of R108 and the mask table of R113 agree: a word is a row's instruction exactly when the row's mask
and match cover it, no two rows cover one word, and a word is a NOP exactly when no row covers it. -/
def Obligations.OpcodeMapDecidesTheInstruction : Prop :=
  (∀ (w : Word) (r : OpcodeRow), r ∈ opcodeMap → ((decodeWord w).mnemonic = r.mnemonic ↔ w &&& r.mask = r.value)) ∧
  (∀ (w : Word) (r r' : OpcodeRow), r ∈ opcodeMap → r' ∈ opcodeMap →
    w &&& r.mask = r.value → w &&& r'.mask = r'.value → r = r') ∧
  (∀ w : Word, decodeWord w = .nop w ↔ ∀ r ∈ opcodeMap, ¬ w &&& r.mask = r.value)

/-! The step and the faults. -/

/-- In RUN, with both bytes at the pc in memory, a step is exec of the instruction they decode to, on the same state; the
byte at the pc is the high one (20_memory.md R77, decision D4: the spec's choice, log 2). exec holds the pc advance. -/
def Obligations.StepRunsTheDecodedInstruction : Prop :=
  ∀ (s : State) (w : Word), s.status = .run → s.pc.toNat + 1 < 4096 →
    w.toNat = 256 * (s.readByte s.pc.toNat).toNat + (s.readByte (s.pc.toNat + 1)).toNat →
    step s = exec (decodeWord w) s

/-- In WAIT_KEY and in FAULT a step changes nothing (40_pipeline.md R131; decisions D8, D14). -/
def Obligations.StepOutsideRunChangesNothing : Prop := ∀ s : State, s.status ≠ .run → step s = .next s

/-- In RUN with pc >= 0xFFF the fetch faults: nothing changes but the status, the record has no opcode, and its info is
the pc where that is out of range and 0x1000 where only pc + 1 is (40_pipeline.md R132; decisions D4, D6). -/
def Obligations.FetchOutOfRangeFaults : Prop := ∀ s : State, FetchFaultsFrom s

/-- Faults are precise (60_exceptions.md R355, 40_pipeline.md R137; decision D6, log 11): a step from RUN that ends in
FAULT changed nothing but the status, and its record holds the pc and the word fetched there, or no word if none was. -/
def Obligations.FaultsArePrecise : Prop :=
  ∀ (s t : State) (r : FaultRecord), s.status = .run → step s = .next t → t.status = .fault r →
    t = { s with status := .fault r } ∧ r.pc = s.pc ∧
    ((∃ w, s.fetch = .ok w ∧ r.opcode = some w) ∨ ((∀ w, s.fetch ≠ .ok w) ∧ r.opcode = none))

/-- Which fault an instruction can raise: the table of 60_exceptions.md R357, which the spec derives. A step from RUN that
ends in FAULT has the code of its fetched instruction's row, or MEM_OUT_OF_BOUNDS where the fetch itself failed. -/
def Obligations.FaultKindOfEachInstruction : Prop :=
  ∀ (s t : State) (r : FaultRecord), s.status = .run → step s = .next t → t.status = .fault r →
    (∀ w, r.opcode = some w → faultOf (decodeWord w) = some r.code) ∧
    (r.opcode = none → r.code = .memOutOfBounds ∧ 0xFFF ≤ s.pc.toNat)

/-- Nothing stops the machine without a next state: every step of every state, and every instruction in every state,
answers one (a fault of the spec being a next state in FAULT: log 5). -/
def Obligations.EveryStepAnswersANextState : Prop :=
  (∀ s : State, ∃ t, step s = .next t) ∧ ∀ (i : Instr) (s : State), ∃ t, exec i s = .next t

/-! Control transfer. -/

/-- 1NNN sets the pc to NNN and BNNN to NNN + V0, and neither changes anything else; a target of 0xFFF or above is legal
here, and the fetch of the next step faults (41_control_flow.md R161, R168; what that fault leaves, the pc kept and no opcode
in the record, is the spec's decision D6 in 40_pipeline.md R132 and R137, log 11). -/
def Obligations.JumpsSetThePc : Prop :=
  RowDecodes 0xF000 0x1000 (fun w => .jp (fieldNNN w)) ∧ RowDecodes 0xF000 0xB000 (fun w => .jpV0 (fieldNNN w)) ∧
  ∀ (nnn : Addr) (s : State),
    (∃ t, exec (.jp nnn) s = .next t ∧ t.pc.toNat = nnn.toNat ∧ Frame [] [] s t ∧ MemSame s t ∧ FetchFaultsFrom t) ∧
    (∃ t, exec (.jpV0 nnn) s = .next t ∧ t.pc.toNat = nnn.toNat + (s.reg 0).toNat ∧ Frame [] [] s t ∧ MemSame s t ∧
      FetchFaultsFrom t)

/-- 2NNN with a free slot stores the return address a + 2 in slot SP, counts SP up and jumps; every other slot and
everything else is kept (41_control_flow.md R162; decision D9). -/
def Obligations.CallPushesTheReturnAddress : Prop :=
  ∀ (nnn : Addr) (s : State), s.sp.val < 16 →
    ∃ t, exec (.call nnn) s = .next t ∧ t.pc.toNat = nnn.toNat ∧ t.sp.val = s.sp.val + 1 ∧
      (∀ k : Fin 16, t.stack[k] = if k.val = s.sp.val then s.pc + 2 else s.stack[k]) ∧
      Frame [] [.sp, .stack] s t ∧ MemSame s t

/-- 00EE with an entry on the stack counts SP down and goes to the address in the slot SP then names; the slot keeps its
value (41_control_flow.md R163; decision D9). -/
def Obligations.ReturnPopsIntoThePc : Prop :=
  ∀ s : State, 0 < s.sp.val →
    ∃ t, exec .ret s = .next t ∧ t.sp.val + 1 = s.sp.val ∧ (∀ k : Fin 16, k.val = t.sp.val → t.pc = s.stack[k]) ∧
      Frame [] [.sp] s t ∧ MemSame s t

/-- A 17th call and a return from an empty stack fault, with nothing written but the status (41_control_flow.md R162,
R163; 60_exceptions.md R350; decisions D6, D7, D9). -/
def Obligations.StackFaultsWriteNothing : Prop :=
  (∀ (nnn : Addr) (s : State), s.sp.val = 16 →
    ∃ w : Word, w.toNat = 0x2000 + nnn.toNat ∧
      exec (.call nnn) s = .next { s with status := .fault ⟨.stackOverflow, s.pc, some w, none⟩ }) ∧
  (∀ s : State, s.sp.val = 0 →
    exec .ret s = .next { s with status := .fault ⟨.stackUnderflow, s.pc, some 0x00EE, none⟩ })

/-- A call followed, whenever the stack is back as the call left it, by a return goes on after the call with SP as before
(95_test_vectors.md W4; 41_control_flow.md R163, corner cases; decision D9). -/
def Obligations.CallThenReturnGoesOnAfterTheCall : Prop :=
  ∀ (nnn : Addr) (s t u : State), s.sp.val < 16 → exec (.call nnn) s = .next t → u.sp = t.sp → u.stack = t.stack →
    ∃ r, exec .ret u = .next r ∧ r.pc = s.pc + 2 ∧ r.sp = s.sp ∧ r.stack = t.stack

/-- 3XNN skips exactly when V[X] = NN and 4XNN exactly when not (41_control_flow.md R164, R165). -/
def Obligations.SkipsCompareARegisterWithAByte : Prop :=
  RowDecodes 0xF000 0x3000 (fun w => .seVxNn (fieldX w) (fieldNN w)) ∧
  RowDecodes 0xF000 0x4000 (fun w => .sneVxNn (fieldX w) (fieldNN w)) ∧
  ∀ (x : RegIdx) (nn : Byte) (s : State),
    CompletesSkip (.seVxNn x nn) s ((s.reg x).toNat = nn.toNat) ∧
    CompletesSkip (.sneVxNn x nn) s ((s.reg x).toNat ≠ nn.toNat)

/-- 5XY0 skips exactly when V[X] = V[Y] and 9XY0 exactly when not; a word with another low nibble is a NOP
(41_control_flow.md R166, R167). -/
def Obligations.SkipsCompareTwoRegisters : Prop :=
  RowDecodes 0xF00F 0x5000 (fun w => .seVxVy (fieldX w) (fieldY w)) ∧
  RowDecodes 0xF00F 0x9000 (fun w => .sneVxVy (fieldX w) (fieldY w)) ∧
  (∀ w : Word, (fieldG w = 0x5 ∨ fieldG w = 0x9) → fieldN w ≠ 0 → decodeWord w = .nop w) ∧
  ∀ (x y : RegIdx) (s : State),
    CompletesSkip (.seVxVy x y) s ((s.reg x).toNat = (s.reg y).toNat) ∧
    CompletesSkip (.sneVxVy x y) s ((s.reg x).toNat ≠ (s.reg y).toNat)

/-- A NOP does nothing but the pc advance, whatever its word (40_pipeline.md R138; decision D25). -/
def Obligations.NopOnlyAdvancesThePc : Prop := ∀ (w : Word) (s : State), Completes (.nop w) s [] [] (fun _ => True)

/-! The ALU. -/

/-- 6XNN loads NN, 7XNN adds NN mod 256 and 8XY0 copies V[Y]; no flag: with X = F, VF is written as a plain register, and
with X not F it is kept (42_alu.md R210-R212). -/
def Obligations.LoadsAndImmediateAdd : Prop :=
  RowDecodes 0xF000 0x6000 (fun w => .ldVxNn (fieldX w) (fieldNN w)) ∧
  RowDecodes 0xF000 0x7000 (fun w => .addVxNn (fieldX w) (fieldNN w)) ∧
  RowDecodes 0xF00F 0x8000 (fun w => .ldVxVy (fieldX w) (fieldY w)) ∧
  ∀ (x y : RegIdx) (nn : Byte) (s : State),
    Completes (.ldVxNn x nn) s [x] [] (fun t => t.reg x = nn) ∧
    Completes (.addVxNn x nn) s [x] [] (fun t => (t.reg x).toNat = ((s.reg x).toNat + nn.toNat) % 256) ∧
    Completes (.ldVxVy x y) s [x] [] (fun t => t.reg x = s.reg y)

/-- 8XY1, 8XY2 and 8XY3 are OR, AND and exclusive OR of each bit; VF is not reset (42_alu.md R213-R215). -/
def Obligations.LogicActsOnEachBit : Prop :=
  RowDecodes 0xF00F 0x8001 (fun w => .or (fieldX w) (fieldY w)) ∧
  RowDecodes 0xF00F 0x8002 (fun w => .and (fieldX w) (fieldY w)) ∧
  RowDecodes 0xF00F 0x8003 (fun w => .xor (fieldX w) (fieldY w)) ∧
  ∀ (x y : RegIdx) (s : State),
    Completes (.or x y) s [x] []
      (fun t => ∀ k < 8, (t.reg x).getLsbD k = ((s.reg x).getLsbD k || (s.reg y).getLsbD k)) ∧
    Completes (.and x y) s [x] []
      (fun t => ∀ k < 8, (t.reg x).getLsbD k = ((s.reg x).getLsbD k && (s.reg y).getLsbD k)) ∧
    Completes (.xor x y) s [x] []
      (fun t => ∀ k < 8, (t.reg x).getLsbD k = ((s.reg x).getLsbD k ^^ (s.reg y).getLsbD k))

/-- The flagged operations where VF is no operand: the result wraps mod 256; the flag is the carry of the sum, the strict
comparison of a difference (so equal operands give 0 with flag 0), and the bit a shift shifts out (42_alu.md R201, R202,
R216-R220). That a shift reads V[X] alone, whatever register Y is, and that the flag of 8XYE is bit 7, is the spec's decision
D24 (log 26, conflict C3). Either value of VF_ALIAS_MODE. -/
def Obligations.FlaggedOperationsOffVf : Prop :=
  (∀ (x y : RegIdx) (s : State), x ≠ 15 → y ≠ 15 →
    Completes (.addVxVy x y) s [x, 15] [] (fun t =>
      (t.reg x).toNat = ((s.reg x).toNat + (s.reg y).toNat) % 256 ∧
      FlagIs ((s.reg x).toNat + (s.reg y).toNat > 255) (t.reg 15)) ∧
    Completes (.sub x y) s [x, 15] [] (fun t =>
      (t.reg x).toNat = ((s.reg x).toNat + 256 - (s.reg y).toNat) % 256 ∧
      FlagIs ((s.reg x).toNat > (s.reg y).toNat) (t.reg 15)) ∧
    Completes (.subn x y) s [x, 15] [] (fun t =>
      (t.reg x).toNat = ((s.reg y).toNat + 256 - (s.reg x).toNat) % 256 ∧
      FlagIs ((s.reg y).toNat > (s.reg x).toNat) (t.reg 15))) ∧
  (∀ (x y : RegIdx) (s : State), x ≠ 15 →
    Completes (.shr x y) s [x, 15] [] (fun t =>
      (t.reg x).toNat = (s.reg x).toNat / 2 ∧ FlagIs ((s.reg x).toNat % 2 = 1) (t.reg 15)) ∧
    Completes (.shl x y) s [x, 15] [] (fun t =>
      (t.reg x).toNat = (s.reg x).toNat * 2 % 256 ∧ FlagIs ((s.reg x).toNat ≥ 128) (t.reg 15)))

/-- The flagged operations where VF is an operand, under SEQUENTIAL: the eleven rows of 42_alu.md R204, which the spec
derives from its decision D3 (log 3). In each row the named values are those before the step. -/
def Obligations.VfOperandsSequential : Prop :=
  ∀ (s : State), s.params.vfAliasMode = .sequential →
    (∀ (y : RegIdx), y ≠ 15 →
      Completes (.addVxVy 15 y) s [15] [] (fun t =>
        FlagIs ((s.reg 15).toNat + (s.reg y).toNat > 255) (t.reg 15)) ∧
      Completes (.sub 15 y) s [15] [] (fun t =>
        (t.reg 15).toNat = ((if (s.reg 15).toNat > (s.reg y).toNat then 1 else 0) + 256 - (s.reg y).toNat) % 256) ∧
      Completes (.subn 15 y) s [15] [] (fun t =>
        (t.reg 15).toNat = ((s.reg y).toNat + 256 - (if (s.reg y).toNat > (s.reg 15).toNat then 1 else 0)) % 256)) ∧
    (∀ (x : RegIdx), x ≠ 15 →
      Completes (.addVxVy x 15) s [x, 15] [] (fun t =>
        (t.reg x).toNat = ((s.reg x).toNat + (s.reg 15).toNat) % 256 ∧
        FlagIs ((s.reg x).toNat + (s.reg 15).toNat > 255) (t.reg 15)) ∧
      Completes (.sub x 15) s [x, 15] [] (fun t =>
        (t.reg x).toNat = ((s.reg x).toNat + 256 - (if (s.reg x).toNat > (s.reg 15).toNat then 1 else 0)) % 256 ∧
        FlagIs ((s.reg x).toNat > (s.reg 15).toNat) (t.reg 15)) ∧
      Completes (.subn x 15) s [x, 15] [] (fun t =>
        (t.reg x).toNat = ((if (s.reg 15).toNat > (s.reg x).toNat then 1 else 0) + 256 - (s.reg x).toNat) % 256 ∧
        FlagIs ((s.reg 15).toNat > (s.reg x).toNat) (t.reg 15))) ∧
    Completes (.addVxVy 15 15) s [15] [] (fun t => FlagIs (2 * (s.reg 15).toNat > 255) (t.reg 15)) ∧
    Completes (.sub 15 15) s [15] [] (fun t => t.reg 15 = 0) ∧
    Completes (.subn 15 15) s [15] [] (fun t => t.reg 15 = 0) ∧
    (∀ (y : RegIdx),
      Completes (.shr 15 y) s [15] [] (fun t => t.reg 15 = 0) ∧
      Completes (.shl 15 y) s [15] [] (fun t => (t.reg 15).toNat = if (s.reg 15).toNat ≥ 128 then 2 else 0))

/-- The same operations under SNAPSHOT, the other reading of decision D3 (log 3): results and flags come from the values
before the step; the carry of 8XY4 is written after its sum, and the other four write the flag before the result. -/
def Obligations.VfOperandsSnapshot : Prop :=
  ∀ (s : State), s.params.vfAliasMode = .snapshot →
    (∀ (y : RegIdx),
      Completes (.addVxVy 15 y) s [15] [] (fun t => FlagIs ((s.reg 15).toNat + (s.reg y).toNat > 255) (t.reg 15)) ∧
      Completes (.sub 15 y) s [15] [] (fun t =>
        (t.reg 15).toNat = ((s.reg 15).toNat + 256 - (s.reg y).toNat) % 256) ∧
      Completes (.subn 15 y) s [15] [] (fun t =>
        (t.reg 15).toNat = ((s.reg y).toNat + 256 - (s.reg 15).toNat) % 256) ∧
      Completes (.shr 15 y) s [15] [] (fun t => (t.reg 15).toNat = (s.reg 15).toNat / 2) ∧
      Completes (.shl 15 y) s [15] [] (fun t => (t.reg 15).toNat = (s.reg 15).toNat * 2 % 256)) ∧
    (∀ (x : RegIdx), x ≠ 15 →
      Completes (.addVxVy x 15) s [x, 15] [] (fun t =>
        (t.reg x).toNat = ((s.reg x).toNat + (s.reg 15).toNat) % 256 ∧
        FlagIs ((s.reg x).toNat + (s.reg 15).toNat > 255) (t.reg 15)) ∧
      Completes (.sub x 15) s [x, 15] [] (fun t =>
        (t.reg x).toNat = ((s.reg x).toNat + 256 - (s.reg 15).toNat) % 256 ∧
        FlagIs ((s.reg x).toNat > (s.reg 15).toNat) (t.reg 15)) ∧
      Completes (.subn x 15) s [x, 15] [] (fun t =>
        (t.reg x).toNat = ((s.reg 15).toNat + 256 - (s.reg x).toNat) % 256 ∧
        FlagIs ((s.reg 15).toNat > (s.reg x).toNat) (t.reg 15)))

/-- CXNN writes the AND of NN and the free random byte, so no bit NN lacks, and takes one draw (42_alu.md R221; decision
D21, log 4). It holds whatever the free value and the counter of draws are. -/
def Obligations.RandomByteIsMasked : Prop :=
  ∀ (x : RegIdx) (nn : Byte) (s : State),
    Completes (.rnd x nn) s [x] [.draws] (fun t =>
      t.reg x = Config.randomByte s.draws &&& nn ∧ (∀ k, nn.getLsbD k = false → (t.reg x).getLsbD k = false) ∧
      t.draws = s.draws + 1)

/-! The index register and memory. -/

/-- ANNN sets I to NNN and changes nothing else (43_index_memory.md R250). -/
def Obligations.LoadIndexImmediate : Prop :=
  RowDecodes 0xF000 0xA000 (fun w => .ldI (fieldNNN w)) ∧
  ∀ (nnn : Addr) (s : State), Completes (.ldI nnn) s [] [.index] (fun t => t.i.toNat = nnn.toNat)

/-- FX1E adds V[X] to I mod 2^16, with no flag and no range check; FX29 sets I to V[X] * 5, not masked (43_index_memory.md
R251, R252; decisions D10, D11, log 12). -/
def Obligations.IndexSumAndGlyphAddress : Prop :=
  ∀ (x : RegIdx) (s : State),
    Completes (.addIVx x) s [] [.index] (fun t => t.i.toNat = (s.i.toNat + (s.reg x).toNat) % 65536) ∧
    Completes (.ldFVx x) s [] [.index] (fun t => t.i.toNat = (s.reg x).toNat * 5)

/-- FX33 stores the hundreds, tens and units of V[X] at I, I+1 and I+2 where all three are in memory, and no other byte
and nothing else changes; where one is not, it faults and changes no memory (43_index_memory.md R253). The premise is the
invariant that memory is canonical. -/
def Obligations.StoreDecimalDigits : Prop :=
  RowDecodes 0xF0FF 0xF033 (fun w => .ldBVx (fieldX w)) ∧
  ∀ (x : RegIdx) (s : State), s.MemWf →
    (s.effAddr 2 < 4096 →
      ∃ t, exec (.ldBVx x) s = .next t ∧ t.pc = s.pc + 2 ∧ Frame [] [] s t ∧ MemSameOutside (s.effAddr 0) 3 s t ∧
        (t.readByte (s.effAddr 0)).toNat = (s.reg x).toNat / 100 ∧
        (t.readByte (s.effAddr 1)).toNat = (s.reg x).toNat / 10 % 10 ∧
        (t.readByte (s.effAddr 2)).toNat = (s.reg x).toNat % 10) ∧
    (4096 ≤ s.effAddr 2 → MemFaults (.ldBVx x) s)

/-- FX55 stores V[k] at I + k for k = 0..X where all are in memory, and no other byte and nothing else changes, I included;
where one is not, it faults and writes no byte (43_index_memory.md R254). -/
def Obligations.StoreRegisterBlock : Prop :=
  RowDecodes 0xF0FF 0xF055 (fun w => .ldMemVx (fieldX w)) ∧
  ∀ (x : RegIdx) (s : State), s.MemWf →
    (s.effAddr x.val < 4096 →
      ∃ t, exec (.ldMemVx x) s = .next t ∧ t.pc = s.pc + 2 ∧ Frame [] [] s t ∧
        MemSameOutside (s.effAddr 0) (x.val + 1) s t ∧
        ∀ k : RegIdx, k ≤ x → t.readByte (s.effAddr k.val) = s.reg k) ∧
    (4096 ≤ s.effAddr x.val → MemFaults (.ldMemVx x) s)

/-- FX65 loads V[k] from I + k for k = 0..X where all are in memory, and no other register and nothing else changes, I
included; where one is not, it faults and writes no register (43_index_memory.md R255). -/
def Obligations.LoadRegisterBlock : Prop :=
  RowDecodes 0xF0FF 0xF065 (fun w => .ldVxMem (fieldX w)) ∧
  ∀ (x : RegIdx) (s : State),
    (s.effAddr x.val < 4096 →
      Completes (.ldVxMem x) s (regsUpTo x) [] (fun t => ∀ k : RegIdx, k ≤ x → t.reg k = s.readByte (s.effAddr k.val))) ∧
    (4096 ≤ s.effAddr x.val → MemFaults (.ldVxMem x) s)

/-- What FX55 stored, FX65 loads back, in any later state with the same memory and the same I (20_memory.md R81; decision
D28). -/
def Obligations.StoredRegistersLoadBack : Prop :=
  ∀ (x : RegIdx) (s t u : State), s.MemWf → s.effAddr x.val < 4096 → exec (.ldMemVx x) s = .next t →
    u.i = t.i → u.mem = t.mem → u.params = t.params →
    ∃ r, exec (.ldVxMem x) u = .next r ∧ ∀ k : RegIdx, k ≤ x → r.reg k = s.reg k

/-- A word FX55 stored is the instruction a later step at that address runs: fetch is coherent with stores (20_memory.md
R83, which the spec derives; decisions D4, D28). -/
def Obligations.StoredWordIsExecuted : Prop :=
  ∀ (x : RegIdx) (s t u : State) (w : Word), s.MemWf → 1 ≤ x.val → s.effAddr x.val < 4096 →
    exec (.ldMemVx x) s = .next t → u.mem = t.mem → u.params = t.params → u.status = .run → u.pc = s.i →
    w.toNat = 256 * (s.reg 0).toNat + (s.reg 1).toNat → step u = exec (decodeWord w) u

/-- Two canonical memories of one machine that read the same at every address are the same data (20_memory.md R70; the
canonical form is the model's own, log 13). -/
def Obligations.CanonicalMemoriesAreEqualWhenReadsAre : Prop :=
  ∀ (font : Font) (m m' : Memory), Memory.wf font m → Memory.wf font m' →
    (∀ a < 4096, Memory.read font m a = Memory.read font m' a) → m = m'

/-! The display. -/

/-- 00E0 clears every pixel and changes nothing else, VF included; no other word of group 0 clears: every one but 00EE is a
NOP (44_display.md R291). -/
def Obligations.ClearScreenClearsEveryPixel : Prop :=
  RowDecodes 0xFFFF 0x00E0 (fun _ => .cls) ∧
  (∀ w : Word, fieldG w = 0 → w ≠ 0x00E0 → w ≠ 0x00EE → decodeWord w = .nop w) ∧
  ∀ s : State, Completes .cls s [] [.fb] (fun t => ∀ x y, t.fb.pixel x y = false)

/-- DXYN flips exactly the pixels its set sprite bits land on: sprite pixel (r, col) lands at column (V[X] + col) mod 64
and row (V[Y] + r) mod 32, wrapping and not clipped, bit 7 leftmost; a set bit flips its pixel, a clear bit leaves it, and
every other pixel is kept; registers but VF and everything else are kept (44_display.md R292-R294). It completes
where all N sprite bytes are in memory, and with N = 0 always, whatever I is, drawing nothing: that is the spec's decision D18
for N = 0 (R297, log 14). -/
def Obligations.DrawFlipsTheSpritePixels : Prop :=
  ∀ (x y : RegIdx) (n : Nibble) (s : State), (n.toNat = 0 ∨ s.effAddr n.toNat ≤ 4096) →
    Completes (.drw x y n) s [15] [.fb] (fun t =>
      (∀ (r col : Nat) (px : Fin 64) (py : Fin 32), r < n.toNat → col < 8 →
        px.val = ((s.reg x).toNat + col) % 64 → py.val = ((s.reg y).toNat + r) % 32 →
        t.fb.pixel px py = (s.fb.pixel px py ^^ s.spriteBit r col)) ∧
      (∀ (px : Fin 64) (py : Fin 32),
        (∀ r col : Nat, r < n.toNat → col < 8 →
          ¬(px.val = ((s.reg x).toNat + col) % 64 ∧ py.val = ((s.reg y).toNat + r) % 32)) →
        t.fb.pixel px py = s.fb.pixel px py))

/-- DXYN sets VF to 1 exactly when some set sprite bit lands on a pixel that was set before the draw, and to 0 otherwise;
with N = 0 that is 0, whatever I is (44_display.md R295-R297; decision D18 for the values, log 14). -/
def Obligations.DrawReportsTheCollision : Prop :=
  ∀ (x y : RegIdx) (n : Nibble) (s : State), (n.toNat = 0 ∨ s.effAddr n.toNat ≤ 4096) →
    ∃ t, exec (.drw x y n) s = .next t ∧
      FlagIs (∃ r col : Nat, r < n.toNat ∧ col < 8 ∧ s.spriteBit r col = true ∧
        s.pixelUnder (s.reg x) (s.reg y) r col = true) (t.reg 15)

/-- DXYN with a sprite byte out of memory faults with the first such address, draws nothing and leaves VF and every other
register (44_display.md R298). -/
def Obligations.DrawOutOfMemoryDrawsNothing : Prop :=
  ∀ (x y : RegIdx) (n : Nibble) (s : State), 0 < n.toNat → 4096 < s.effAddr n.toNat → MemFaults (.drw x y n) s

/-- Drawing a sprite and drawing it again at once, with coordinates not in VF, restores every pixel; the second draw sets
VF to 1 exactly when the first left one of the sprite's pixels set (44_display.md R299, which the spec derives; conflict
C11). -/
def Obligations.DrawingTwiceRestoresTheScreen : Prop :=
  ∀ (x y : RegIdx) (n : Nibble) (s t : State), x ≠ 15 → y ≠ 15 → (n.toNat = 0 ∨ s.effAddr n.toNat ≤ 4096) →
    exec (.drw x y n) s = .next t →
    ∃ u, exec (.drw x y n) t = .next u ∧ u.fb = s.fb ∧
      FlagIs (∃ r col : Nat, r < n.toNat ∧ col < 8 ∧ s.spriteBit r col = true ∧
        t.pixelUnder (s.reg x) (s.reg y) r col = true) (u.reg 15)

/-- Only 00E0 and DXYN write the framebuffer, and only reset also sets it, to all clear; no other step and no tick, load,
key event or wait changes it; the pixel query reads it (44_display.md R290). -/
def Obligations.OnlyClearDrawAndResetWritePixels : Prop :=
  (∀ (a : Transaction) (s t : State), transact a s = .next t → t.fb ≠ s.fb →
    a = .reset ∨ (a = .step ∧ s.status = .run ∧
      ∃ w, s.fetch = .ok w ∧ (decodeWord w = .cls ∨ ∃ x y n, decodeWord w = .drw x y n))) ∧
  (∀ s : State, ∃ t, transact .reset s = .next t ∧ ∀ x y, t.fb.pixel x y = false) ∧
  (∀ (s : State) (x : Fin 64) (y : Fin 32), portPixelAt x.val y.val s = .ok (s.fb.pixel x y))

/-! Timers and keys. -/

/-- FX07 reads DT into V[X], FX15 sets DT and FX18 sets ST from V[X]; each changes nothing else (45_timers_keypad.md R323,
R325, R326). -/
def Obligations.TimerInstructionsMoveTheTimers : Prop :=
  RowDecodes 0xF0FF 0xF007 (fun w => .ldVxDt (fieldX w)) ∧ RowDecodes 0xF0FF 0xF015 (fun w => .ldDtVx (fieldX w)) ∧
  RowDecodes 0xF0FF 0xF018 (fun w => .ldStVx (fieldX w)) ∧
  ∀ (x : RegIdx) (s : State),
    Completes (.ldVxDt x) s [x] [] (fun t => t.reg x = s.dt) ∧
    Completes (.ldDtVx x) s [] [.dt] (fun t => t.dt = s.reg x) ∧
    Completes (.ldStVx x) s [] [.st] (fun t => t.st = s.reg x)

/-- With a key number in V[X], EX9E skips exactly when that key is pressed and EXA1 exactly when it is not; the key state
is not changed (45_timers_keypad.md R321, R322; decision D13 for the range). -/
def Obligations.KeySkipsReadTheKeyLevel : Prop :=
  ∀ (x : RegIdx) (k : Key) (s : State), (s.reg x).toNat = k.val →
    CompletesSkip (.skp x) s (s.keyPressed k = true) ∧ CompletesSkip (.sknp x) s (s.keyPressed k = false)

/-- With a value over 15 in V[X], EX9E and EXA1 fault with that value as info, and nothing changes but the status
(45_timers_keypad.md R321, R322; 60_exceptions.md R350; decisions D6, D13). -/
def Obligations.KeyNumberOutOfRangeFaults : Prop :=
  ∀ (x : RegIdx) (s : State), 15 < (s.reg x).toNat →
    ∃ a : Word, a.toNat = (s.reg x).toNat ∧
      (∃ w : Word, w.toNat = 0xE09E + x.val * 256 ∧
        exec (.skp x) s = .next { s with status := .fault ⟨.keyIndexOutOfRange, s.pc, some w, some a⟩ }) ∧
      (∃ w : Word, w.toNat = 0xE0A1 + x.val * 256 ∧
        exec (.sknp x) s = .next { s with status := .fault ⟨.keyIndexOutOfRange, s.pc, some w, some a⟩ })

/-- FX0A suspends: the status becomes WAIT_KEY(X), the pc has moved on, and nothing else changes, V[X] and the key state
included, whether or not a key is held (45_timers_keypad.md R324; decision D14, log 15). -/
def Obligations.KeyWaitSuspends : Prop :=
  ∀ (x : RegIdx) (s : State), Completes (.ldVxK x) s [] [.status] (fun t => t.status = .waitKey x)

/-- A key-down sets its key, and in WAIT_KEY(x) also writes the key's number to V[x] and resumes; a key-up clears its key;
neither does anything in FAULT (45_timers_keypad.md R328, R329; decisions D14, D23). -/
def Obligations.KeyEventsSetKeysAndEndAWait : Prop :=
  ∀ (k : Key) (s : State),
    (∃ t, transact (.keyDown k) s = .next t ∧
      match s.status with
      | .fault _ => t = s
      | .run => (∀ j, t.keyPressed j = (decide (j = k) || s.keyPressed j)) ∧ t.pc = s.pc ∧ Frame [] [.keys] s t ∧
          MemSame s t
      | .waitKey x => (∀ j, t.keyPressed j = (decide (j = k) || s.keyPressed j)) ∧ (t.reg x).toNat = k.val ∧
          t.status = .run ∧ t.pc = s.pc ∧ Frame [x] [.keys, .status] s t ∧ MemSame s t) ∧
    (∃ t, transact (.keyUp k) s = .next t ∧
      match s.status with
      | .fault _ => t = s
      | .run | .waitKey _ => (∀ j, t.keyPressed j = (!decide (j = k) && s.keyPressed j)) ∧ t.pc = s.pc ∧
          Frame [] [.keys] s t ∧ MemSame s t)

/-- In RUN a tick takes one from each timer that is not zero, both in one tick, and changes nothing else; in WAIT_KEY and
FAULT it changes nothing (45_timers_keypad.md R327; decision D15). -/
def Obligations.TickDecrementsTheTimers : Prop :=
  ∀ s : State,
    (s.status = .run → ∃ t, transact .tick s = .next t ∧ t.dt.toNat = s.dt.toNat - 1 ∧ t.st.toNat = s.st.toNat - 1 ∧
      t.pc = s.pc ∧ Frame [] [.dt, .st] s t ∧ MemSame s t) ∧
    (s.status ≠ .run → transact .tick s = .next s)

/-- The one wait state: only FX0A enters WAIT_KEY(x), from RUN; while it lasts steps and ticks change nothing; only a
key-down or reset ends it (60_exceptions.md R365; 40_pipeline.md R131; decisions D8, D14, D15). -/
def Obligations.OnlyAKeyDownOrResetEndsAWait : Prop :=
  (∀ (a : Transaction) (s t : State) (x : RegIdx), transact a s = .next t → t.status = .waitKey x →
    s.status = .waitKey x ∨ (a = .step ∧ s.status = .run ∧ ∃ w, s.fetch = .ok w ∧ decodeWord w = .ldVxK x)) ∧
  (∀ (a : Transaction) (s t : State) (x : RegIdx), s.status = .waitKey x → transact a s = .next t →
    t.status ≠ .waitKey x → a = .reset ∨ ∃ k, a = .keyDown k) ∧
  (∀ (s : State) (x : RegIdx), s.status = .waitKey x → transact .step s = .next s ∧ transact .tick s = .next s)

/-! The ports, reset and the whole machine. -/

/-- FAULT is absorbing: every port but RESET leaves the state whole, and RESET leaves RUN (60_exceptions.md R356, R392;
decision D8). -/
def Obligations.OnlyResetLeavesAFault : Prop :=
  ∀ (s : State) (r : FaultRecord), s.status = .fault r →
    (∀ a : Transaction, a ≠ .reset → transact a s = .next s) ∧ ∃ t, transact .reset s = .next t ∧ t.status = .run

/-- LOAD, outside FAULT, puts an image of at most 3584 bytes at 0x200 and sets the pc to 0x200, changing no other byte and
nothing else; a longer image is refused (60_exceptions.md R382; decision D20, conflict C6). -/
def Obligations.LoadPlacesTheImage : Prop :=
  ∀ (img : List Byte) (s : State), s.MemWf → (∀ r, s.status ≠ .fault r) →
    (img.length ≤ 3584 →
      ∃ t, transact (.load img) s = .next t ∧ t.pc.toNat = 0x200 ∧ Frame [] [] s t ∧
        MemSameOutside 0x200 img.length s t ∧ ∀ k (h : k < img.length), t.readByte (0x200 + k) = img[k]) ∧
    (3584 < img.length → transact (.load img) s = .refused .imageTooLarge)

/-- What RESET leaves, in any status: every register, I, SP, slot, timer, pixel and key zero, FONT at 0x000-0x04F and 0 in
the rest of memory, pc 0 and status RUN (10_state.md R51, 70_reset_and_hazards.md R400; decision D19 for pc and status;
FONT is the machine's parameter, log 1). -/
def Obligations.ResetLeavesTheZeroState : Prop :=
  ∀ s : State, ∃ t, transact .reset s = .next t ∧ (∀ k, t.reg k = 0) ∧ t.i = 0 ∧ t.pc = 0 ∧ t.sp = 0 ∧
    (∀ k : Fin 16, t.stack[k] = 0) ∧ t.dt = 0 ∧ t.st = 0 ∧
    (∀ a (h : a < 80), t.readByte a = s.params.font[a]) ∧ (∀ a, 80 ≤ a → t.readByte a = 0) ∧
    (∀ x y, t.fb.pixel x y = false) ∧ (∀ k, t.keyPressed k = false) ∧ t.status = .run ∧ t.params = s.params

/-- The frame of every instruction (40_pipeline.md R140, decision D2; 10_state.md R32, which the spec derives): it writes
no register, no part and no byte of memory but those its rule names. -/
def Obligations.InstructionsWriteOnlyWhatTheirRulesName : Prop :=
  ∀ (i : Instr) (s t : State), s.MemWf → exec i s = .next t →
    Frame (regsWritten i) (partsWritten i) s t ∧ MemSameOutside (s.effAddr 0) (bytesStored i) s t

/-- No instruction reads the sound timer: two states that differ in ST alone go to states that differ in ST alone
(10_state.md R38). -/
def Obligations.NoInstructionReadsTheSoundTimer : Prop :=
  ∀ (i : Instr) (s t : State) (c : Byte), exec i s = .next t → ∃ d, exec i { s with st := c } = .next { t with st := d }

/-- No program observes the stack slots at and above SP: states that differ only there step to states that differ only
there (10_state.md R48, which the spec derives). -/
def Obligations.FreeStackSlotsAreNotObserved : Prop :=
  ∀ s s' t : State, SameButFreeSlots s s' → step s = .next t → ∃ t', step s' = .next t' ∧ SameButFreeSlots t t'

/-- The state after reset meets the invariant. -/
def Obligations.ResetMeetsTheInvariant : Prop := State.reset.Inv

/-- Every step keeps the invariant: memory stays canonical, the pc stays at most 0x10FE and return addresses at most
0x1000 (decision D5), and in FAULT the record describes the frozen state (60_exceptions.md R354, R392). -/
def Obligations.StepKeepsTheInvariant : Prop := ∀ s t : State, s.Inv → step s = .next t → t.Inv

/-- Every transaction of the host keeps the invariant: the host's inputs as well as steps, in any order. -/
def Obligations.TransactionsKeepTheInvariant : Prop :=
  ∀ (a : Transaction) (s t : State), s.Inv → transact a s = .next t → t.Inv
end

