-- ==== Sys2Proof/Laws/Decode.lean ====
section
/-! SUPPORT. The small laws of the instruction word: its fields as numbers, the fields of an encoded word, a word given
back from its fields, and the masks of the opcode map in terms of fields. -/

namespace Sys2Proof

/-! The fields as numbers. -/

theorem fieldG_toNat (op : Word) : (fieldG op).toNat = op.toNat / 4096 := by
  have := op.isLt
  simp only [fieldG, BitVec.extractLsb'_toNat, Nat.shiftRight_eq_div_pow]
  omega

theorem fieldX_val (op : Word) : (fieldX op).val = op.toNat / 256 % 16 := by
  simp only [fieldX, BitVec.val_toFin, BitVec.extractLsb'_toNat, Nat.shiftRight_eq_div_pow]

theorem fieldY_val (op : Word) : (fieldY op).val = op.toNat / 16 % 16 := by
  simp only [fieldY, BitVec.val_toFin, BitVec.extractLsb'_toNat, Nat.shiftRight_eq_div_pow]

theorem fieldN_toNat (op : Word) : (fieldN op).toNat = op.toNat % 16 := by
  simp only [fieldN, BitVec.extractLsb'_toNat, Nat.shiftRight_zero]

theorem fieldNN_toNat (op : Word) : (fieldNN op).toNat = op.toNat % 256 := by
  simp only [fieldNN, BitVec.extractLsb'_toNat, Nat.shiftRight_zero]

theorem fieldNNN_toNat (op : Word) : (fieldNNN op).toNat = op.toNat % 4096 := by
  simp only [fieldNNN, BitVec.extractLsb'_toNat, Nat.shiftRight_zero]

/-! The encoded words as numbers. -/

theorem append_toNat {m n : Nat} (a : BitVec m) (b : BitVec n) : (a ++ b).toNat = a.toNat * 2 ^ n + b.toNat := by
  rw [BitVec.toNat_append, ← Nat.shiftLeft_add_eq_or_of_lt b.isLt, Nat.shiftLeft_eq]

theorem regBits_toNat (x : RegIdx) : (regBits x).toNat = x.val := rfl

theorem formA_toNat (g : Nibble) (nnn : Addr) : (formA g nnn).toNat = g.toNat * 4096 + nnn.toNat :=
  append_toNat g nnn

theorem formXNN_toNat (g : Nibble) (x : RegIdx) (nn : Byte) :
    (formXNN g x nn).toNat = g.toNat * 4096 + x.val * 256 + nn.toNat := by
  have h : (formXNN g x nn).toNat = (g ++ regBits x ++ nn).toNat := rfl
  rw [h, append_toNat, append_toNat, regBits_toNat]; omega

theorem formXYN_toNat (g : Nibble) (x y : RegIdx) (n : Nibble) :
    (formXYN g x y n).toNat = g.toNat * 4096 + x.val * 256 + y.val * 16 + n.toNat := by
  have h : (formXYN g x y n).toNat = (g ++ regBits x ++ regBits y ++ n).toNat := rfl
  rw [h, append_toNat, append_toNat, append_toNat, regBits_toNat, regBits_toNat]; omega

/-- The word of two bytes, as a number: big-endian. -/
theorem wordOfBytes_toNat (hi lo : Byte) : (wordOfBytes hi lo).toNat = hi.toNat * 256 + lo.toNat := append_toNat hi lo

theorem highByte_toNat (w : Word) : (highByte w).toNat = w.toNat / 256 := by
  have := w.isLt
  simp only [highByte, BitVec.extractLsb'_toNat, Nat.shiftRight_eq_div_pow]
  omega

theorem lowByte_toNat (w : Word) : (lowByte w).toNat = w.toNat % 256 := by
  simp only [lowByte, BitVec.extractLsb'_toNat, Nat.shiftRight_zero]

/-- A word is the word of its two bytes. -/
@[simp] theorem wordOfBytes_bytes (w : Word) : wordOfBytes (highByte w) (lowByte w) = w := by
  apply BitVec.eq_of_toNat_eq
  rw [wordOfBytes_toNat, highByte_toNat, lowByte_toNat]; omega

/-! The fields of an encoded word. -/

section
variable (g : Nibble) (x y : RegIdx) (n : Nibble) (nn : Byte) (nnn : Addr)

@[simp] theorem fieldG_formA : fieldG (formA g nnn) = g := by
  apply BitVec.eq_of_toNat_eq
  have := nnn.isLt
  rw [fieldG_toNat, formA_toNat]; omega

@[simp] theorem fieldNNN_formA : fieldNNN (formA g nnn) = nnn := by
  apply BitVec.eq_of_toNat_eq
  have := nnn.isLt
  rw [fieldNNN_toNat, formA_toNat]; omega

@[simp] theorem fieldG_formXNN : fieldG (formXNN g x nn) = g := by
  apply BitVec.eq_of_toNat_eq
  have := nn.isLt
  rw [fieldG_toNat, formXNN_toNat]; omega

@[simp] theorem fieldX_formXNN : fieldX (formXNN g x nn) = x := by
  apply Fin.ext
  have := nn.isLt
  rw [fieldX_val, formXNN_toNat]; omega

@[simp] theorem fieldNN_formXNN : fieldNN (formXNN g x nn) = nn := by
  apply BitVec.eq_of_toNat_eq
  have := nn.isLt
  rw [fieldNN_toNat, formXNN_toNat]; omega

@[simp] theorem fieldG_formXYN : fieldG (formXYN g x y n) = g := by
  apply BitVec.eq_of_toNat_eq
  have := n.isLt
  rw [fieldG_toNat, formXYN_toNat]; omega

@[simp] theorem fieldX_formXYN : fieldX (formXYN g x y n) = x := by
  apply Fin.ext
  have := n.isLt
  rw [fieldX_val, formXYN_toNat]; omega

@[simp] theorem fieldY_formXYN : fieldY (formXYN g x y n) = y := by
  apply Fin.ext
  have := n.isLt
  rw [fieldY_val, formXYN_toNat]; omega

@[simp] theorem fieldN_formXYN : fieldN (formXYN g x y n) = n := by
  apply BitVec.eq_of_toNat_eq
  have := n.isLt
  rw [fieldN_toNat, formXYN_toNat]; omega

end

/-! A word is given back from its fields. -/

theorem formA_fields (w : Word) : formA (fieldG w) (fieldNNN w) = w := by
  apply BitVec.eq_of_toNat_eq
  rw [formA_toNat, fieldG_toNat, fieldNNN_toNat]; omega

theorem formXNN_fields (w : Word) : formXNN (fieldG w) (fieldX w) (fieldNN w) = w := by
  apply BitVec.eq_of_toNat_eq
  rw [formXNN_toNat, fieldG_toNat, fieldX_val, fieldNN_toNat]; omega

theorem formXYN_fields (w : Word) : formXYN (fieldG w) (fieldX w) (fieldY w) (fieldN w) = w := by
  apply BitVec.eq_of_toNat_eq
  rw [formXYN_toNat, fieldG_toNat, fieldX_val, fieldY_val, fieldN_toNat]; omega

/-! The masks of the opcode map (30_encoding.md R113): each keeps some fields and clears the rest. -/

theorem and_F000 (w : Word) : w &&& 0xF000 = formXYN (fieldG w) 0 0 0 := by
  apply BitVec.eq_of_toNat_eq
  have hw := w.isLt
  have h : (w &&& 0xF000).toNat = w.toNat / 4096 * 4096 := by
    have e : w &&& (0xF000 : Word) = (w >>> (12 : Nat)) <<< (12 : Nat) := by
      apply BitVec.eq_of_getLsbD_eq
      intro i hi
      interval_cases i <;> simp
    rw [e, BitVec.toNat_shiftLeft, BitVec.toNat_ushiftRight, Nat.shiftRight_eq_div_pow, Nat.shiftLeft_eq]
    omega
  rw [h, formXYN_toNat, fieldG_toNat]
  simp

theorem and_F00F (w : Word) : w &&& 0xF00F = formXYN (fieldG w) 0 0 (fieldN w) := by
  have e : w &&& 0xF00F = (w &&& 0xF000) + (w &&& 0x000F) := by
    rw [BitVec.add_eq_or_of_and_eq_zero _ _ (by
      apply BitVec.eq_of_getLsbD_eq; intro i hi; interval_cases i <;> simp)]
    apply BitVec.eq_of_getLsbD_eq
    intro i hi
    interval_cases i <;> simp
  have l : (w &&& 0x000F).toNat = w.toNat % 16 := by
    rw [BitVec.toNat_and]; exact Nat.and_two_pow_sub_one_eq_mod w.toNat 4
  apply BitVec.eq_of_toNat_eq
  have hw := w.isLt
  rw [e, BitVec.toNat_add, and_F000, l, formXYN_toNat, formXYN_toNat, fieldG_toNat, fieldN_toNat]
  simp
  omega

theorem and_F0FF (w : Word) : w &&& 0xF0FF = formXNN (fieldG w) 0 (fieldNN w) := by
  have e : w &&& 0xF0FF = (w &&& 0xF000) + (w &&& 0x00FF) := by
    rw [BitVec.add_eq_or_of_and_eq_zero _ _ (by
      apply BitVec.eq_of_getLsbD_eq; intro i hi; interval_cases i <;> simp)]
    apply BitVec.eq_of_getLsbD_eq
    intro i hi
    interval_cases i <;> simp
  have l : (w &&& 0x00FF).toNat = w.toNat % 256 := by
    rw [BitVec.toNat_and]; exact Nat.and_two_pow_sub_one_eq_mod w.toNat 8
  apply BitVec.eq_of_toNat_eq
  have hw := w.isLt
  rw [e, BitVec.toNat_add, and_F000, l, formXYN_toNat, formXNN_toNat, fieldG_toNat, fieldNN_toNat]
  simp
  omega

theorem and_FFFF (w : Word) : w &&& 0xFFFF = w := by
  apply BitVec.eq_of_getLsbD_eq
  intro i hi
  interval_cases i <;> simp

/-- A 4-bit mask match fixes G. -/
theorem mask_F000 {w : Word} {g : Nibble} : w &&& 0xF000 = formXYN g 0 0 0 ↔ fieldG w = g := by
  rw [and_F000]
  exact ⟨fun h => by simpa using congrArg fieldG h, fun h => by rw [h]⟩

/-- A match under 0xF00F fixes G and N. -/
theorem mask_F00F {w : Word} {g n : Nibble} : w &&& 0xF00F = formXYN g 0 0 n ↔ fieldG w = g ∧ fieldN w = n := by
  rw [and_F00F]
  exact ⟨fun h => ⟨by simpa using congrArg fieldG h, by simpa using congrArg fieldN h⟩, fun h => by rw [h.1, h.2]⟩

/-- A match under 0xF0FF fixes G and NN. -/
theorem mask_F0FF {w : Word} {g : Nibble} {nn : Byte} :
    w &&& 0xF0FF = formXNN g 0 nn ↔ fieldG w = g ∧ fieldNN w = nn := by
  rw [and_F0FF]
  exact ⟨fun h => ⟨by simpa using congrArg fieldG h, by simpa using congrArg fieldNN h⟩, fun h => by rw [h.1, h.2]⟩

end Sys2Proof
end

