-- ==== Sys2Proof/Laws/State.lean ====
section
/-! SUPPORT. One lemma per field per named update of the state, each true by rfl, so that no later proof unfolds a record
update; and what the register accessors read after each update. -/

namespace Sys2Proof.Machine

/-! State.advance -/

@[simp] theorem State.advance_v (s : State) : s.advance.v = s.v := rfl
@[simp] theorem State.advance_i (s : State) : s.advance.i = s.i := rfl
@[simp] theorem State.advance_pc (s : State) : s.advance.pc = s.pc + 2 := rfl
@[simp] theorem State.advance_sp (s : State) : s.advance.sp = s.sp := rfl
@[simp] theorem State.advance_stack (s : State) : s.advance.stack = s.stack := rfl
@[simp] theorem State.advance_dt (s : State) : s.advance.dt = s.dt := rfl
@[simp] theorem State.advance_st (s : State) : s.advance.st = s.st := rfl
@[simp] theorem State.advance_mem (s : State) : s.advance.mem = s.mem := rfl
@[simp] theorem State.advance_fb (s : State) : s.advance.fb = s.fb := rfl
@[simp] theorem State.advance_keys (s : State) : s.advance.keys = s.keys := rfl
@[simp] theorem State.advance_status (s : State) : s.advance.status = s.status := rfl
@[simp] theorem State.advance_params (s : State) : s.advance.params = s.params := rfl
@[simp] theorem State.advance_draws (s : State) : s.advance.draws = s.draws := rfl

/-! State.skip -/

@[simp] theorem State.skip_v (s : State) : s.skip.v = s.v := rfl
@[simp] theorem State.skip_i (s : State) : s.skip.i = s.i := rfl
@[simp] theorem State.skip_pc (s : State) : s.skip.pc = s.pc + 2 := rfl
@[simp] theorem State.skip_sp (s : State) : s.skip.sp = s.sp := rfl
@[simp] theorem State.skip_stack (s : State) : s.skip.stack = s.stack := rfl
@[simp] theorem State.skip_dt (s : State) : s.skip.dt = s.dt := rfl
@[simp] theorem State.skip_st (s : State) : s.skip.st = s.st := rfl
@[simp] theorem State.skip_mem (s : State) : s.skip.mem = s.mem := rfl
@[simp] theorem State.skip_fb (s : State) : s.skip.fb = s.fb := rfl
@[simp] theorem State.skip_keys (s : State) : s.skip.keys = s.keys := rfl
@[simp] theorem State.skip_status (s : State) : s.skip.status = s.status := rfl
@[simp] theorem State.skip_params (s : State) : s.skip.params = s.params := rfl
@[simp] theorem State.skip_draws (s : State) : s.skip.draws = s.draws := rfl

/-! State.setReg -/

@[simp] theorem State.setReg_v (s : State) (x : RegIdx) (b : Byte) : (s.setReg x b).v = s.v.set x b := rfl
@[simp] theorem State.setReg_i (s : State) (x : RegIdx) (b : Byte) : (s.setReg x b).i = s.i := rfl
@[simp] theorem State.setReg_pc (s : State) (x : RegIdx) (b : Byte) : (s.setReg x b).pc = s.pc := rfl
@[simp] theorem State.setReg_sp (s : State) (x : RegIdx) (b : Byte) : (s.setReg x b).sp = s.sp := rfl
@[simp] theorem State.setReg_stack (s : State) (x : RegIdx) (b : Byte) : (s.setReg x b).stack = s.stack := rfl
@[simp] theorem State.setReg_dt (s : State) (x : RegIdx) (b : Byte) : (s.setReg x b).dt = s.dt := rfl
@[simp] theorem State.setReg_st (s : State) (x : RegIdx) (b : Byte) : (s.setReg x b).st = s.st := rfl
@[simp] theorem State.setReg_mem (s : State) (x : RegIdx) (b : Byte) : (s.setReg x b).mem = s.mem := rfl
@[simp] theorem State.setReg_fb (s : State) (x : RegIdx) (b : Byte) : (s.setReg x b).fb = s.fb := rfl
@[simp] theorem State.setReg_keys (s : State) (x : RegIdx) (b : Byte) : (s.setReg x b).keys = s.keys := rfl
@[simp] theorem State.setReg_status (s : State) (x : RegIdx) (b : Byte) : (s.setReg x b).status = s.status := rfl
@[simp] theorem State.setReg_params (s : State) (x : RegIdx) (b : Byte) : (s.setReg x b).params = s.params := rfl
@[simp] theorem State.setReg_draws (s : State) (x : RegIdx) (b : Byte) : (s.setReg x b).draws = s.draws := rfl

/-! State.writeByte -/

@[simp] theorem State.writeByte_v (s : State) (a : Nat) (b : Byte) : (s.writeByte a b).v = s.v := rfl
@[simp] theorem State.writeByte_i (s : State) (a : Nat) (b : Byte) : (s.writeByte a b).i = s.i := rfl
@[simp] theorem State.writeByte_pc (s : State) (a : Nat) (b : Byte) : (s.writeByte a b).pc = s.pc := rfl
@[simp] theorem State.writeByte_sp (s : State) (a : Nat) (b : Byte) : (s.writeByte a b).sp = s.sp := rfl
@[simp] theorem State.writeByte_stack (s : State) (a : Nat) (b : Byte) : (s.writeByte a b).stack = s.stack := rfl
@[simp] theorem State.writeByte_dt (s : State) (a : Nat) (b : Byte) : (s.writeByte a b).dt = s.dt := rfl
@[simp] theorem State.writeByte_st (s : State) (a : Nat) (b : Byte) : (s.writeByte a b).st = s.st := rfl
@[simp] theorem State.writeByte_mem (s : State) (a : Nat) (b : Byte) : (s.writeByte a b).mem = Memory.write s.params.font s.mem a b := rfl
@[simp] theorem State.writeByte_fb (s : State) (a : Nat) (b : Byte) : (s.writeByte a b).fb = s.fb := rfl
@[simp] theorem State.writeByte_keys (s : State) (a : Nat) (b : Byte) : (s.writeByte a b).keys = s.keys := rfl
@[simp] theorem State.writeByte_status (s : State) (a : Nat) (b : Byte) : (s.writeByte a b).status = s.status := rfl
@[simp] theorem State.writeByte_params (s : State) (a : Nat) (b : Byte) : (s.writeByte a b).params = s.params := rfl
@[simp] theorem State.writeByte_draws (s : State) (a : Nat) (b : Byte) : (s.writeByte a b).draws = s.draws := rfl

/-! State.takeFault -/

@[simp] theorem State.takeFault_v (s : State) (o : Option Word) (e : Raise) : (s.takeFault o e).v = s.v := rfl
@[simp] theorem State.takeFault_i (s : State) (o : Option Word) (e : Raise) : (s.takeFault o e).i = s.i := rfl
@[simp] theorem State.takeFault_pc (s : State) (o : Option Word) (e : Raise) : (s.takeFault o e).pc = s.pc := rfl
@[simp] theorem State.takeFault_sp (s : State) (o : Option Word) (e : Raise) : (s.takeFault o e).sp = s.sp := rfl
@[simp] theorem State.takeFault_stack (s : State) (o : Option Word) (e : Raise) : (s.takeFault o e).stack = s.stack := rfl
@[simp] theorem State.takeFault_dt (s : State) (o : Option Word) (e : Raise) : (s.takeFault o e).dt = s.dt := rfl
@[simp] theorem State.takeFault_st (s : State) (o : Option Word) (e : Raise) : (s.takeFault o e).st = s.st := rfl
@[simp] theorem State.takeFault_mem (s : State) (o : Option Word) (e : Raise) : (s.takeFault o e).mem = s.mem := rfl
@[simp] theorem State.takeFault_fb (s : State) (o : Option Word) (e : Raise) : (s.takeFault o e).fb = s.fb := rfl
@[simp] theorem State.takeFault_keys (s : State) (o : Option Word) (e : Raise) : (s.takeFault o e).keys = s.keys := rfl
@[simp] theorem State.takeFault_status (s : State) (o : Option Word) (e : Raise) : (s.takeFault o e).status = .fault { code := e.code, pc := s.pc, opcode := o, info := e.info } := rfl
@[simp] theorem State.takeFault_params (s : State) (o : Option Word) (e : Raise) : (s.takeFault o e).params = s.params := rfl
@[simp] theorem State.takeFault_draws (s : State) (o : Option Word) (e : Raise) : (s.takeFault o e).draws = s.draws := rfl

/-! The skip that depends on a condition: every field but the pc is kept. -/

theorem State.skipIf_pc (s : State) (c : Bool) : (s.skipIf c).pc = if c then s.pc + 2 else s.pc := by
  cases c <;> rfl

@[simp] theorem State.skipIf_v (s : State) (c : Bool) : (s.skipIf c).v = s.v := by cases c <;> rfl
@[simp] theorem State.skipIf_i (s : State) (c : Bool) : (s.skipIf c).i = s.i := by cases c <;> rfl
@[simp] theorem State.skipIf_sp (s : State) (c : Bool) : (s.skipIf c).sp = s.sp := by cases c <;> rfl
@[simp] theorem State.skipIf_stack (s : State) (c : Bool) : (s.skipIf c).stack = s.stack := by cases c <;> rfl
@[simp] theorem State.skipIf_dt (s : State) (c : Bool) : (s.skipIf c).dt = s.dt := by cases c <;> rfl
@[simp] theorem State.skipIf_st (s : State) (c : Bool) : (s.skipIf c).st = s.st := by cases c <;> rfl
@[simp] theorem State.skipIf_mem (s : State) (c : Bool) : (s.skipIf c).mem = s.mem := by cases c <;> rfl
@[simp] theorem State.skipIf_fb (s : State) (c : Bool) : (s.skipIf c).fb = s.fb := by cases c <;> rfl
@[simp] theorem State.skipIf_keys (s : State) (c : Bool) : (s.skipIf c).keys = s.keys := by cases c <;> rfl
@[simp] theorem State.skipIf_status (s : State) (c : Bool) : (s.skipIf c).status = s.status := by cases c <;> rfl
@[simp] theorem State.skipIf_params (s : State) (c : Bool) : (s.skipIf c).params = s.params := by cases c <;> rfl
@[simp] theorem State.skipIf_draws (s : State) (c : Bool) : (s.skipIf c).draws = s.draws := by cases c <;> rfl

/-! Registers: a read after a write gives the value written, and every other register is kept. -/

@[simp] theorem State.reg_setReg (s : State) (x : RegIdx) (b : Byte) (k : RegIdx) :
    (s.setReg x b).reg k = if k = x then b else s.reg k := by
  rcases k with ⟨k, hk⟩
  rcases x with ⟨x, hx⟩
  simp only [State.reg, State.setReg, Fin.getElem_fin, Vector.getElem_set, Fin.mk.injEq]
  split <;> split <;> first | rfl | omega

@[simp] theorem State.reg_advance (s : State) (k : RegIdx) : s.advance.reg k = s.reg k := rfl
@[simp] theorem State.reg_skip (s : State) (k : RegIdx) : s.skip.reg k = s.reg k := rfl
@[simp] theorem State.reg_skipIf (s : State) (c : Bool) (k : RegIdx) : (s.skipIf c).reg k = s.reg k := by
  cases c <;> rfl
@[simp] theorem State.reg_writeByte (s : State) (a : Nat) (b : Byte) (k : RegIdx) : (s.writeByte a b).reg k = s.reg k := rfl
@[simp] theorem State.reg_takeFault (s : State) (o : Option Word) (e : Raise) (k : RegIdx) :
    (s.takeFault o e).reg k = s.reg k := rfl

/-! A byte of memory, after updates that touch no memory. -/

@[simp] theorem State.readByte_advance (s : State) (a : Nat) : s.advance.readByte a = s.readByte a := rfl
@[simp] theorem State.readByte_skip (s : State) (a : Nat) : s.skip.readByte a = s.readByte a := rfl
@[simp] theorem State.readByte_skipIf (s : State) (c : Bool) (a : Nat) : (s.skipIf c).readByte a = s.readByte a := by
  cases c <;> rfl
@[simp] theorem State.readByte_setReg (s : State) (x : RegIdx) (b : Byte) (a : Nat) :
    (s.setReg x b).readByte a = s.readByte a := rfl
@[simp] theorem State.readByte_takeFault (s : State) (o : Option Word) (e : Raise) (a : Nat) :
    (s.takeFault o e).readByte a = s.readByte a := rfl

end Sys2Proof.Machine
end

