-- ==== Sys2Proof/Laws/Memory.lean ====
section
/-! SUPPORT. The laws of memory: a read after a write, the canonical form kept by every operation, and what the checked
accesses can do. -/

namespace Sys2Proof.Machine

/-- Every cell's address is above a. -/
abbrev Memory.Above (a : Nat) (m : Memory) : Prop := ∀ c ∈ m, a < c.1

theorem Memory.read_of_above {font : Font} {m : Memory} {a : Nat} (h : Memory.Above a m) :
    Memory.read font m a = Memory.unlisted font a := by
  induction m with
  | nil => rfl
  | cons c m ih =>
    have h1 : a < c.1 := h c (by simp)
    rw [Memory.read, if_neg (by omega)]
    exact ih fun d hd => h d (List.mem_cons_of_mem _ hd)

theorem Memory.above_tail {c : Host.Cell} {m : Memory} (h : (c :: m).Pairwise (fun c d => c.1 < d.1)) :
    Memory.Above c.1 m := fun d hd => (List.pairwise_cons.mp h).1 d hd

theorem Memory.read_insert (font : Font) {m : Memory} (hm : m.Pairwise (fun c d => c.1 < d.1)) (a : Nat) (b : Byte)
    (k : Nat) : Memory.read font (Memory.insert m a b) k = if k = a then b else Memory.read font m k := by
  induction m with
  | nil => simp only [Memory.insert, Memory.read]; split <;> split <;> first | rfl | omega
  | cons c m ih =>
    obtain ⟨key, v⟩ := c
    have ih := ih hm.of_cons
    simp only [Memory.insert]
    split
    · simp only [Memory.read]
      repeat' split
      all_goals first | rfl | omega
    · split
      · simp only [Memory.read]
        repeat' split
        all_goals first | rfl | omega
      · simp only [Memory.read, ih]
        repeat' split
        all_goals first | rfl | omega

theorem Memory.read_erase (font : Font) {m : Memory} (hm : m.Pairwise (fun c d => c.1 < d.1)) (a k : Nat) :
    Memory.read font (Memory.erase m a) k = if k = a then Memory.unlisted font a else Memory.read font m k := by
  induction m with
  | nil => simp only [Memory.erase, Memory.read]; split <;> simp_all
  | cons c m ih =>
    obtain ⟨key, v⟩ := c
    have ih := ih hm.of_cons
    have above := Memory.above_tail hm
    simp only [Memory.erase]
    split
    case isTrue h =>
      subst h
      simp only [Memory.read]
      by_cases h : k = key
      · subst h; simp [Memory.read_of_above above]
      · rw [if_neg h, if_neg (fun e => h e.symm)]
    case isFalse h =>
      simp only [Memory.read, ih]
      repeat' split
      all_goals first | rfl | omega

/-- A read after a write: the byte written at its address, the old byte everywhere else. -/
theorem Memory.read_write {font : Font} {m : Memory} (hm : Memory.wf font m) (a : Nat) (b : Byte) (k : Nat) :
    Memory.read font (Memory.write font m a b) k = if k = a then b else Memory.read font m k := by
  simp only [Memory.write]
  split
  case isTrue h => rw [Memory.read_erase font hm.1, h]
  case isFalse => rw [Memory.read_insert font hm.1]

theorem Memory.mem_erase {m : Memory} {a : Nat} {c : Host.Cell} (h : c ∈ Memory.erase m a) : c ∈ m := by
  induction m with
  | nil => exact h
  | cons d m ih =>
    obtain ⟨key, v⟩ := d
    simp only [Memory.erase] at h
    split at h
    · exact List.mem_cons_of_mem _ h
    · rcases List.mem_cons.mp h with h | h
      · exact h ▸ List.mem_cons_self
      · exact List.mem_cons_of_mem _ (ih h)

theorem Memory.mem_insert {m : Memory} {a : Nat} {b : Byte} {c : Host.Cell} (h : c ∈ Memory.insert m a b) :
    c = (a, b) ∨ c ∈ m := by
  induction m with
  | nil => exact .inl (List.mem_singleton.mp h)
  | cons d m ih =>
    obtain ⟨key, v⟩ := d
    simp only [Memory.insert] at h
    split at h
    · exact List.mem_cons.mp h
    · split at h
      · rcases List.mem_cons.mp h with h | h
        · exact .inl h
        · exact .inr (List.mem_cons_of_mem _ h)
      · rcases List.mem_cons.mp h with h | h
        · exact .inr (h ▸ List.mem_cons_self)
        · exact (ih h).imp id (List.mem_cons_of_mem _)

theorem Memory.sorted_erase {m : Memory} (hm : m.Pairwise (fun c d => c.1 < d.1)) (a : Nat) :
    (Memory.erase m a).Pairwise (fun c d => c.1 < d.1) := by
  induction m with
  | nil => exact hm
  | cons c m ih =>
    obtain ⟨key, v⟩ := c
    simp only [Memory.erase]
    split
    · exact hm.of_cons
    · exact List.pairwise_cons.mpr ⟨fun d hd => Memory.above_tail hm d (Memory.mem_erase hd), ih hm.of_cons⟩

theorem Memory.sorted_insert {m : Memory} (hm : m.Pairwise (fun c d => c.1 < d.1)) (a : Nat) (b : Byte) :
    (Memory.insert m a b).Pairwise (fun c d => c.1 < d.1) := by
  induction m with
  | nil => simp [Memory.insert]
  | cons c m ih =>
    obtain ⟨key, v⟩ := c
    have above := Memory.above_tail hm
    simp only [Memory.insert]
    split
    case isTrue h =>
      refine List.pairwise_cons.mpr ⟨fun d hd => ?_, hm⟩
      rcases List.mem_cons.mp hd with rfl | hd
      · exact h
      · exact h.trans (above d hd)
    case isFalse h =>
      split
      case isTrue e => exact List.pairwise_cons.mpr ⟨fun d hd => e ▸ above d hd, hm.of_cons⟩
      case isFalse e =>
        refine List.pairwise_cons.mpr ⟨fun d hd => ?_, ih hm.of_cons⟩
        rcases Memory.mem_insert hd with rfl | hd
        · show key < a; omega
        · exact above d hd

/-- A write inside memory keeps the canonical form. -/
theorem Memory.wf_write {font : Font} {m : Memory} (hm : Memory.wf font m) {a : Nat} (ha : a < Config.memSize) (b : Byte) :
    Memory.wf font (Memory.write font m a b) := by
  simp only [Memory.write]
  split
  case isTrue => exact ⟨Memory.sorted_erase hm.1 a, fun c hc => hm.2 c (Memory.mem_erase hc)⟩
  case isFalse h =>
    refine ⟨Memory.sorted_insert hm.1 a b, fun c hc => ?_⟩
    rcases Memory.mem_insert hc with rfl | hc
    · exact ⟨ha, h⟩
    · exact hm.2 c hc

/-- The memory after reset is canonical, whatever the font. -/
theorem Memory.wf_nil (font : Font) : Memory.wf font [] := ⟨List.Pairwise.nil, by simp⟩

/-- The state after reset has canonical memory. -/
theorem State.reset_mem_wf : Memory.wf State.reset.params.font State.reset.mem := Memory.wf_nil _

/-! The same, on states. -/

theorem State.readByte_writeByte {s : State} (hs : Memory.wf s.params.font s.mem) (a : Nat) (b : Byte) (k : Nat) :
    (s.writeByte a b).readByte k = if k = a then b else s.readByte k :=
  Memory.read_write hs a b k

/-- A block of bytes written touches memory alone: it is one update of the memory field. -/
theorem State.writeBytes_eq (s : State) (a : Nat) (bs : List Byte) :
    s.writeBytes a bs = { s with mem := (s.writeBytes a bs).mem } := by
  induction bs generalizing s a with
  | nil => rfl
  | cons b bs ih => rw [State.writeBytes, ih]; rfl

theorem State.writeBytes_wf {s : State} (hs : Memory.wf s.params.font s.mem) {a : Nat} {bs : List Byte}
    (h : a + bs.length ≤ Config.memSize) : Memory.wf s.params.font (s.writeBytes a bs).mem := by
  induction bs generalizing s a with
  | nil => exact hs
  | cons b bs ih =>
    simp only [List.length_cons] at h
    exact ih (s := s.writeByte a b) (Memory.wf_write hs (by omega) b) (by omega)

/-- Reading after a block was written: the block's byte inside it, the old byte outside it. -/
theorem State.readByte_writeBytes {s : State} (hs : Memory.wf s.params.font s.mem) {a : Nat} {bs : List Byte}
    (h : a + bs.length ≤ Config.memSize) (k : Nat) :
    (s.writeBytes a bs).readByte k =
      if hk : a ≤ k ∧ k < a + bs.length then bs[k - a]'(by omega) else s.readByte k := by
  induction bs generalizing s a with
  | nil =>
    have hn : ¬(a ≤ k ∧ k < a + ([] : List Byte).length) := by simp
    rw [dif_neg hn]; rfl
  | cons b bs ih =>
    simp only [List.length_cons] at h
    rw [State.writeBytes, ih (s := s.writeByte a b) (Memory.wf_write hs (by omega) b) (by omega),
      State.readByte_writeByte hs]
    by_cases hka : k = a
    · subst hka
      simp
    · by_cases hin : a + 1 ≤ k ∧ k < a + 1 + bs.length
      · have h2 : a ≤ k ∧ k < a + (b :: bs).length := by simp only [List.length_cons]; omega
        rw [dif_pos hin, dif_pos h2, List.getElem_cons, dif_neg (by omega)]
        congr 1
      · have h2 : ¬(a ≤ k ∧ k < a + (b :: bs).length) := by simp only [List.length_cons]; omega
        rw [dif_neg hin, dif_neg h2, if_neg hka]

/-! The checked accesses. -/

/-- The ascending search of R12 in closed form: no address is out of range, or the first is max a 4096. -/
theorem firstOutOfRange_eq (a n : Nat) :
    firstOutOfRange a n = if n = 0 ∨ a + n ≤ Config.memSize then none else some (max a Config.memSize) := by
  induction n generalizing a with
  | zero => simp [firstOutOfRange]
  | succ n ih =>
    have hm : Config.memSize = 4096 := rfl
    rw [firstOutOfRange, ih]
    repeat' split
    all_goals first | rfl | omega | (congr 1; omega)

theorem checkRange_ok {a n : Nat} (h : n = 0 ∨ a + n ≤ Config.memSize) : checkRange a n = .ok () := by
  simp [checkRange, firstOutOfRange_eq, h]

theorem checkRange_error {a n : Nat} (h : ¬(n = 0 ∨ a + n ≤ Config.memSize)) :
    checkRange a n = .error { code := .memOutOfBounds, info := some (BitVec.ofNat 16 (max a Config.memSize)) } := by
  simp only [checkRange, firstOutOfRange_eq, if_neg h]

theorem State.memRead_ok {s : State} {a n : Nat} (h : n = 0 ∨ a + n ≤ Config.memSize) :
    s.memRead a n = .ok ((List.range n).map fun k => s.readByte (a + k)) := by
  rw [State.memRead, checkRange_ok h]

theorem State.memRead_error {s : State} {a n : Nat} (h : ¬(n = 0 ∨ a + n ≤ Config.memSize)) :
    s.memRead a n =
      .error { code := .memOutOfBounds, info := some (BitVec.ofNat 16 (max a Config.memSize)) } := by
  rw [State.memRead, checkRange_error h]

theorem State.memWrite_ok {s : State} {a : Nat} {bs : List Byte} (h : bs.length = 0 ∨ a + bs.length ≤ Config.memSize) :
    s.memWrite a bs = .ok (s.writeBytes a bs) := by
  rw [State.memWrite, checkRange_ok h]

theorem State.memWrite_error {s : State} {a : Nat} {bs : List Byte}
    (h : ¬(bs.length = 0 ∨ a + bs.length ≤ Config.memSize)) :
    s.memWrite a bs =
      .error { code := .memOutOfBounds, info := some (BitVec.ofNat 16 (max a Config.memSize)) } := by
  rw [State.memWrite, checkRange_error h]

/-- Fetch where both bytes are in memory. -/
theorem State.fetch_ok {s : State} (h : s.pc.toNat + 2 ≤ Config.memSize) :
    s.fetch = .ok (wordOfBytes (s.readByte s.pc.toNat) (s.readByte (s.pc.toNat + 1))) := by
  rw [State.fetch, checkRange_ok (.inr h)]

/-- Fetch where one is not. -/
theorem State.fetch_error {s : State} (h : ¬ s.pc.toNat + 2 ≤ Config.memSize) :
    s.fetch =
      .error { code := .memOutOfBounds, info := some (BitVec.ofNat 16 (max s.pc.toNat Config.memSize)) } := by
  rw [State.fetch, checkRange_error (by omega)]

end Sys2Proof.Machine
end

