-- ==== Sys2Proof/Laws/Ops.lean ====
section
/-! SUPPORT. One law per shared operation, saying once everything it can do: committing and aborting, the stack, the
register block, the ALU's write-back, the pixel of a framebuffer, and fetching what was placed. -/

namespace Sys2Proof.Machine

/-! Commit and abort. -/

/-- What the end of a step can be: the committed state, or the state before the step with the fault taken. -/
theorem complete_cases {op : Word} {s t : State} {r : Except Raise State} (h : complete op s r = .next t) :
    r = .ok t ∨ ∃ e, r = .error e ∧ t = s.takeFault (some op) e := by
  cases r with
  | ok s' => exact .inl (by simpa [complete] using h)
  | error e => exact .inr ⟨e, rfl, by simpa [complete] using h.symm⟩

@[simp] theorem complete_ok (op : Word) (s t : State) : complete op s (.ok t) = .next t := rfl

@[simp] theorem complete_error (op : Word) (s : State) (e : Raise) :
    complete op s (.error e) = .next (s.takeFault (some op) e) := rfl

/-! The stack. -/

/-- A push with a free slot: the word in slot SP, SP one up, nothing else. -/
theorem State.push_ok {s : State} (w : Word) (h : s.sp.val < 16) :
    s.push w = .ok { s with stack := s.stack.set s.sp.val w h, sp := ⟨s.sp.val + 1, by omega⟩ } := by
  rw [State.push, dif_pos h]

/-- A push on a full stack. -/
theorem State.push_error {s : State} (w : Word) (h : s.sp = 16) :
    s.push w = .error { code := .stackOverflow, info := none } := by
  rw [State.push, dif_neg (by rw [h]; decide)]

/-- A pop of an entry: SP one down, the pc from the slot, nothing else. -/
theorem State.popPc_ok {s : State} (h : s.sp.val ≠ 0) :
    s.popPc = .ok { s with sp := ⟨s.sp.val - 1, by omega⟩, pc := s.stack[s.sp.val - 1] } := by
  rw [State.popPc, dif_neg h]

/-- A pop of an empty stack. -/
theorem State.popPc_error {s : State} (h : s.sp = 0) :
    s.popPc = .error { code := .stackUnderflow, info := none } := by
  rw [State.popPc, dif_pos (by rw [h]; rfl)]

/-! The register block of FX65. -/

/-- Successive register writes touch the registers alone: they are one update of the register field. -/
theorem State.setRegs_eq (s : State) (k : Nat) (bs : List Byte) :
    s.setRegs k bs = { s with v := (s.setRegs k bs).v } := by
  induction bs generalizing s k with
  | nil => rfl
  | cons b bs ih => rw [State.setRegs, ih]; rfl

/-- A register after successive writes from register k on: the byte inside the block, the old byte outside. -/
theorem State.reg_setRegs (s : State) (k : Nat) (bs : List Byte) (h : k + bs.length ≤ 16) (j : RegIdx) :
    (s.setRegs k bs).reg j = if hj : k ≤ j.val ∧ j.val < k + bs.length then bs[j.val - k]'(by omega) else s.reg j := by
  induction bs generalizing s k with
  | nil =>
    have hn : ¬(k ≤ j.val ∧ j.val < k + ([] : List Byte).length) := by simp
    rw [dif_neg hn]; rfl
  | cons b bs ih =>
    simp only [List.length_cons] at h
    rw [State.setRegs, ih (s.setReg (Fin.ofNat 16 k) b) (k + 1) (by omega), State.reg_setReg]
    have hk : (Fin.ofNat 16 k).val = k := Nat.mod_eq_of_lt (by omega)
    by_cases hjk : j = Fin.ofNat 16 k
    · have hv : j.val = k := by rw [hjk, hk]
      rw [dif_neg (by omega), if_pos hjk, dif_pos (by simp only [List.length_cons]; omega)]
      simp [hv]
    · have hv : j.val ≠ k := fun e => hjk (Fin.ext (by rw [hk, e]))
      by_cases hin : k + 1 ≤ j.val ∧ j.val < k + 1 + bs.length
      · rw [dif_pos hin, dif_pos (by simp only [List.length_cons]; omega), List.getElem_cons, dif_neg (by omega)]
        congr 1
      · rw [dif_neg hin, if_neg hjk, dif_neg (by simp only [List.length_cons]; omega)]

/-! The ALU's write-back. -/

theorem State.reg_writeFlag (s : State) (f : Option Bool) (k : RegIdx) :
    (s.writeFlag f).reg k = if k = vf then (f.map flagByte).getD (s.reg k) else s.reg k := by
  cases f with
  | none => simp [State.writeFlag]
  | some f => simp [State.writeFlag]

/-- Writing a flag touches the registers alone. -/
theorem State.writeFlag_eq (s : State) (f : Option Bool) : s.writeFlag f = { s with v := (s.writeFlag f).v } := by
  cases f <;> rfl

/-- Result-first write-back touches the registers alone. -/
theorem State.aluResultFirst_eq (s : State) (op : AluOp) (x : RegIdx) (a b rb : Byte) :
    s.aluResultFirst op x a b rb = { s with v := (s.aluResultFirst op x a b rb).v } := by
  unfold State.aluResultFirst
  cases aluFlag op a b <;> rfl

/-- Result-first write-back: the flag wins in VF where there is one, the result stands in V[x], the rest is kept. -/
theorem State.reg_aluResultFirst (s : State) (op : AluOp) (x : RegIdx) (a b rb : Byte) (k : RegIdx) :
    (s.aluResultFirst op x a b rb).reg k =
      if k = vf then ((aluFlag op a b).map flagByte).getD (if vf = x then aluResult op a b rb else s.reg vf)
      else if k = x then aluResult op a b rb else s.reg k := by
  rw [State.aluResultFirst, State.reg_writeFlag]
  split
  case isTrue h => subst h; rw [State.reg_setReg]
  case isFalse => rw [State.reg_setReg]

/-- Flag-first write-back touches the registers alone. -/
theorem State.aluFlagFirst_eq (s : State) (op : AluOp) (x y : RegIdx) :
    s.aluFlagFirst op x y = { s with v := (s.aluFlagFirst op x y).v } := by
  unfold State.aluFlagFirst
  cases aluFlag op (s.reg x) (s.reg y) <;> rfl

/-- Flag-first write-back of a flagged operation: the result wins in V[x]; its operands are read with the flag already
in VF under SEQUENTIAL, and as they were under SNAPSHOT. -/
theorem State.reg_aluFlagFirst (s : State) (op : AluOp) (x y : RegIdx) {f : Bool}
    (hf : aluFlag op (s.reg x) (s.reg y) = some f) (k : RegIdx) :
    (s.aluFlagFirst op x y).reg k =
      if k = x then
        match s.params.vfAliasMode with
        | .sequential => aluResult op (if x = vf then flagByte f else s.reg x) (if y = vf then flagByte f else s.reg y) 0
        | .snapshot => aluResult op (s.reg x) (s.reg y) 0
      else if k = vf then flagByte f else s.reg k := by
  simp only [State.aluFlagFirst, hf, State.writeFlag, State.reg_setReg]
  split
  · cases s.params.vfAliasMode <;> simp [State.reg_setReg]
  · rfl

/-! Pixels. -/

/-- A pixel after a pixel was set: the value at that place, the old value at every other. -/
theorem Framebuffer.pixel_setPixel (fb : Framebuffer) (x : Fin 64) (y : Fin 32) (b : Bool) (x' : Fin 64) (y' : Fin 32) :
    (fb.setPixel x y b).pixel x' y' = if x' = x ∧ y' = y then b else fb.pixel x' y' := by
  rcases x with ⟨x, hx⟩
  rcases y with ⟨y, hy⟩
  rcases x' with ⟨x', hx'⟩
  rcases y' with ⟨y', hy'⟩
  simp only [Framebuffer.pixel, Framebuffer.setPixel, Fin.getElem_fin, Vector.getElem_set, Fin.mk.injEq]
  by_cases hyy : y = y'
  · subst hyy
    simp only [if_true, and_true, Vector.getElem_set]
    by_cases hxx : x = x' <;> simp [hxx, eq_comm]
  · simp [hyy, Ne.symm hyy]

/-- Two framebuffers with the same pixels are the same. -/
theorem Framebuffer.ext_pixel {fb fb' : Framebuffer} (h : ∀ x y, fb.pixel x y = fb'.pixel x y) : fb = fb' := by
  apply Vector.ext
  intro y hy
  apply Vector.ext
  intro x hx
  exact h ⟨x, hx⟩ ⟨y, hy⟩

@[simp] theorem Framebuffer.pixel_blank (x : Fin 64) (y : Fin 32) : Framebuffer.blank.pixel x y = false := by
  simp [Framebuffer.pixel, Framebuffer.blank]

/-- Flipping one pixel: that pixel is inverted, every other is kept. -/
theorem Blit.pixel_flip (b : Blit) (x : Fin 64) (y : Fin 32) (x' : Fin 64) (y' : Fin 32) :
    (b.flip x y).fb.pixel x' y' = (b.fb.pixel x' y' ^^ decide (x' = x ∧ y' = y)) := by
  rw [Blit.flip, Framebuffer.pixel_setPixel]
  split
  case isTrue h => simp [h]
  case isFalse h => simp [h]

/-- Flipping a pixel that was set raises the collision; nothing lowers it. -/
@[simp] theorem Blit.c_flip (b : Blit) (x : Fin 64) (y : Fin 32) : (b.flip x y).c = (b.c || b.fb.pixel x y) := rfl

/-! Placing an instruction where the next step fetches. -/

theorem State.fetchable_lt (s : State) : s.fetchable.toNat + 2 ≤ Config.memSize := by
  simp only [State.fetchable]
  split
  case isTrue h => simp only [Config.memSize] at h ⊢; omega
  case isFalse => decide

/-- The step after placing an instruction runs exactly it. -/
theorem step_withFetchWord {s : State} (hs : Memory.wf s.params.font s.mem) (w : Word) :
    step (s.withFetchWord 16 w.toNat) = exec (decodeWord w) (s.withFetchWord 16 w.toNat) := by
  have hw : BitVec.ofNat 16 (w.toNat % 2 ^ 16) = w := by
    rw [Nat.mod_eq_of_lt w.isLt, BitVec.ofNat_toNat, BitVec.setWidth_eq]
  have hb : tableBytes 16 w.toNat = [highByte w, lowByte w] := by simp only [tableBytes, hw]
  have hlt := s.fetchable_lt
  let s0 : State := { s with status := .run, pc := s.fetchable }
  have hm : Memory.wf s0.params.font s0.mem := hs
  have hlen : s.fetchable.toNat + [highByte w, lowByte w].length ≤ Config.memSize := by simpa using hlt
  have e : s.withFetchWord 16 w.toNat = s0.writeBytes s.fetchable.toNat [highByte w, lowByte w] := by
    rw [State.withFetchWord, hb]; rfl
  have hst : (s.withFetchWord 16 w.toNat).status = .run := by rw [e]; rfl
  have hpc : (s.withFetchWord 16 w.toNat).pc = s.fetchable := by rw [e]; rfl
  have hf : (s.withFetchWord 16 w.toNat).fetch = .ok w := by
    rw [State.fetch_ok (by rw [hpc]; exact hlt), hpc, e, State.readByte_writeBytes hm hlen,
      State.readByte_writeBytes hm hlen, dif_pos (by simp), dif_pos (by simp)]
    simp
  rw [step, hst]
  simp only [hf]

end Sys2Proof.Machine
end

