-- ==== Sys2Proof/Laws/Exec.lean ====
section
/-! SUPPORT. What the step and the instructions with more than one outcome can do, said once: the form of a step from RUN,
each checked instruction where its check holds and where it fails, and one inversion of exec: it completes, it waits, or it
takes a fault of its own kind. -/

namespace Sys2Proof.Machine

theorem Config.memSize_eq : Config.memSize = 4096 := rfl

/-! The step. -/

/-- A step from RUN, as an equation. -/
theorem step_of_run {s : State} (hs : s.status = .run) :
    step s = match s.fetch with
      | .ok op => exec (decodeWord op) s
      | .error e => .next (s.takeFault none e) := by
  unfold step
  split
  · rfl
  · simp_all
  · simp_all

/-- A step from RUN: exec of the fetched word's instruction, or the fault of the fetch. -/
theorem step_run_cases {s t : State} (hs : s.status = .run) (h : step s = .next t) :
    (∃ w, s.fetch = .ok w ∧ exec (decodeWord w) s = .next t) ∨ ∃ e, s.fetch = .error e ∧ t = s.takeFault none e := by
  rw [step, hs] at h
  revert h
  cases hf : s.fetch with
  | ok w => exact fun h => .inl ⟨w, rfl, h⟩
  | error e => exact fun h => .inr ⟨e, rfl, by cases h; rfl⟩

/-- A step outside RUN. -/
theorem step_of_not_run {s : State} (h : s.status ≠ .run) : step s = .next s := by
  unfold step
  split
  · contradiction
  · rfl
  · rfl

/-- When the fetch fails, and with what. -/
theorem State.fetch_error_cases {s : State} {e : Raise} (h : s.fetch = .error e) :
    0xFFF ≤ s.pc.toNat ∧
      e = { code := .memOutOfBounds, info := some (BitVec.ofNat 16 (max s.pc.toNat Config.memSize)) } := by
  by_cases hc : s.pc.toNat + 2 ≤ Config.memSize
  · rw [State.fetch_ok hc] at h; cases h
  · rw [State.fetch_error hc] at h; cases h; rw [Config.memSize_eq] at hc; exact ⟨by omega, rfl⟩

/-- The first address out of range, as the word a record holds. -/
theorem outOfRange_toNat (p : Word) : (BitVec.ofNat 16 (max p.toNat Config.memSize)).toNat = max p.toNat 0x1000 := by
  have := p.isLt
  rw [BitVec.toNat_ofNat, Config.memSize_eq, Nat.mod_eq_of_lt]; omega

/-! The checked accesses, inverted. -/

theorem checkRange_error_cases {a n : Nat} {e : Raise} (h : checkRange a n = .error e) :
    n ≠ 0 ∧ Config.memSize < a + n ∧
      e = { code := .memOutOfBounds, info := some (BitVec.ofNat 16 (max a Config.memSize)) } := by
  by_cases hc : n = 0 ∨ a + n ≤ Config.memSize
  · rw [checkRange_ok hc] at h; cases h
  · rw [checkRange_error hc] at h; cases h; exact ⟨by omega, by omega, rfl⟩

theorem State.memWrite_cases {s : State} {a : Nat} {bs : List Byte} {r : Except Raise State} (h : s.memWrite a bs = r) :
    r = .ok (s.writeBytes a bs) ∧ (bs.length = 0 ∨ a + bs.length ≤ Config.memSize) ∨
    r = .error { code := .memOutOfBounds, info := some (BitVec.ofNat 16 (max a Config.memSize)) } ∧ bs.length ≠ 0 ∧
      Config.memSize < a + bs.length := by
  by_cases hc : bs.length = 0 ∨ a + bs.length ≤ Config.memSize
  · exact .inl ⟨by rw [← h, State.memWrite_ok hc], hc⟩
  · exact .inr ⟨by rw [← h, State.memWrite_error hc], by omega, by omega⟩

theorem State.regBlock_length (s : State) (x : RegIdx) : (s.regBlock x).length = x.val + 1 := by simp [State.regBlock]

/-- Byte k of the register block is V[k]. -/
theorem State.regBlock_getElem (s : State) (x k : RegIdx) (h : k.val < (s.regBlock x).length) :
    (s.regBlock x)[k.val] = s.reg k := by
  simp only [State.regBlock, List.getElem_map, List.getElem_range]
  congr 1
  exact Fin.ext (Nat.mod_eq_of_lt k.isLt)

/-! The checked instructions, one equation for each outcome. -/

theorem exec_call_ok {nnn : Addr} {s : State} (h : s.sp.val < 16) :
    exec (.call nnn) s = .next { s with
      pc := zext16 nnn, stack := s.stack.set s.sp.val (s.pc + 2) h, sp := ⟨s.sp.val + 1, by omega⟩ } := by
  show complete _ _ _ = _
  rw [State.push_ok (s := s.advance) s.advance.pc h]; rfl

theorem exec_call_full {nnn : Addr} {s : State} (h : s.sp = 16) :
    exec (.call nnn) s = .next (s.takeFault (some (encode (.call nnn))) { code := .stackOverflow, info := none }) := by
  show complete _ _ _ = _
  rw [State.push_error (s := s.advance) s.advance.pc h]; rfl

theorem exec_ret_ok {s : State} (h : s.sp.val ≠ 0) :
    exec .ret s = .next { s with pc := s.stack[s.sp.val - 1], sp := ⟨s.sp.val - 1, by omega⟩ } := by
  show complete _ _ _ = _
  rw [State.popPc_ok (s := s.advance) h]; rfl

theorem exec_ret_empty {s : State} (h : s.sp = 0) :
    exec .ret s = .next (s.takeFault (some 0x00EE) { code := .stackUnderflow, info := none }) := by
  show complete _ _ _ = _
  rw [State.popPc_error (s := s.advance) h]; rfl

theorem exec_ldMemVx_ok {x : RegIdx} {s : State} (h : s.effAddr x.val < 4096) :
    exec (.ldMemVx x) s = .next (s.advance.writeBytes (s.effAddr 0) (s.regBlock x)) := by
  show complete _ _ _ = _
  rw [State.memWrite_ok (.inr (by
    rw [State.regBlock_length, Config.memSize_eq]; simp only [State.effAddr] at *; omega))]
  rfl

theorem exec_ldMemVx_error {x : RegIdx} {s : State} (h : 4096 ≤ s.effAddr x.val) :
    exec (.ldMemVx x) s = .next (s.takeFault (some (encode (.ldMemVx x)))
      { code := .memOutOfBounds, info := some (BitVec.ofNat 16 (max (s.effAddr 0) Config.memSize)) }) := by
  show complete _ _ _ = _
  rw [State.memWrite_error (by
    rw [State.regBlock_length, Config.memSize_eq]; simp only [State.effAddr] at *; omega)]
  rfl

theorem exec_ldBVx_ok {x : RegIdx} {s : State} (h : s.effAddr 2 < 4096) :
    exec (.ldBVx x) s = .next (s.advance.writeBytes (s.effAddr 0) (decimalDigits (s.reg x))) := by
  show complete _ _ _ = _
  rw [State.memWrite_ok (.inr (by
    simp only [decimalDigits, List.length_cons, List.length_nil, Config.memSize_eq, State.effAddr] at *; omega))]
  rfl

theorem exec_ldBVx_error {x : RegIdx} {s : State} (h : 4096 ≤ s.effAddr 2) :
    exec (.ldBVx x) s = .next (s.takeFault (some (encode (.ldBVx x)))
      { code := .memOutOfBounds, info := some (BitVec.ofNat 16 (max (s.effAddr 0) Config.memSize)) }) := by
  show complete _ _ _ = _
  rw [State.memWrite_error (by
    simp only [decimalDigits, List.length_cons, List.length_nil, Config.memSize_eq, State.effAddr] at *; omega)]
  rfl

theorem exec_ldVxMem_ok {x : RegIdx} {s : State} (h : s.effAddr x.val < 4096) :
    exec (.ldVxMem x) s = .next (s.advance.setRegs 0 ((List.range (x.val + 1)).map fun k => s.readByte (s.effAddr k))) := by
  show complete _ _ _ = _
  rw [State.memRead_ok (s := s.advance) (.inr (by rw [Config.memSize_eq]; simp only [State.effAddr] at *; omega))]
  rfl

theorem exec_ldVxMem_error {x : RegIdx} {s : State} (h : 4096 ≤ s.effAddr x.val) :
    exec (.ldVxMem x) s = .next (s.takeFault (some (encode (.ldVxMem x)))
      { code := .memOutOfBounds, info := some (BitVec.ofNat 16 (max (s.effAddr 0) Config.memSize)) }) := by
  show complete _ _ _ = _
  rw [State.memRead_error (s := s.advance) (by rw [Config.memSize_eq]; simp only [State.effAddr] at *; omega)]
  rfl

theorem keyOfByte_ok {b : Byte} {k : Key} (h : b.toNat = k.val) : keyOfByte b = .ok k := by
  have := k.isLt
  rw [keyOfByte, dif_pos (by omega)]
  congr 1
  exact Fin.ext h

theorem keyOfByte_error {b : Byte} (h : 15 < b.toNat) :
    keyOfByte b = .error { code := .keyIndexOutOfRange, info := some (b.setWidth 16) } := by
  rw [keyOfByte, dif_neg (by omega)]

/-! The inversion. -/

/-- What an instruction can do to the status: it keeps it; FX0A waits; or the step is aborted and a fault of the
instruction's own kind is taken, whose record says why. -/
theorem exec_cases (i : Instr) (s t : State) (h : exec i s = .next t) :
    (t.status = s.status ∨ ∃ x, i = .ldVxK x ∧ t.status = .waitKey x) ∨
    ∃ e, t = s.takeFault (some (encode i)) e ∧ faultOf i = some e.code ∧
      (match e.code with
       | .memOutOfBounds => e.info = some (BitVec.ofNat 16 (max s.i.toNat Config.memSize))
       | .stackOverflow => s.sp = 16 ∧ e.info = none
       | .stackUnderflow => s.sp = 0 ∧ e.info = none
       | .keyIndexOutOfRange =>
         ∃ x, (i = .skp x ∨ i = .sknp x) ∧ 16 ≤ (s.reg x).toNat ∧ e.info = some ((s.reg x).setWidth 16)) := by
  cases i
  case call nnn =>
    rcases complete_cases h with hk | ⟨e, hk, rfl⟩ <;> clear h <;> rename' hk => h
    · left; left
      by_cases hs : s.advance.sp.val < 16
      · rw [State.push_ok _ hs] at h; cases h; rfl
      · rw [State.push_error _ (by apply Fin.ext; show _ = 16; have := s.advance.sp.isLt; omega)] at h; cases h
    · right
      by_cases hs : s.advance.sp.val < 16
      · rw [State.push_ok _ hs] at h; cases h
      · have h16 : s.advance.sp = 16 := by apply Fin.ext; show _ = 16; have := s.advance.sp.isLt; omega
        rw [State.push_error _ h16] at h; cases h
        exact ⟨_, rfl, rfl, h16, rfl⟩
  case ret =>
    rcases complete_cases h with hk | ⟨e, hk, rfl⟩ <;> clear h <;> rename' hk => h
    · left; left
      by_cases hs : s.advance.sp.val = 0
      · rw [State.popPc_error (Fin.ext hs)] at h; cases h
      · rw [State.popPc_ok hs] at h; cases h; rfl
    · right
      by_cases hs : s.advance.sp.val = 0
      · rw [State.popPc_error (Fin.ext hs)] at h; cases h
        exact ⟨_, rfl, rfl, Fin.ext hs, rfl⟩
      · rw [State.popPc_ok hs] at h; cases h
  case drw x y n =>
    rcases complete_cases h with hk | ⟨e, hk, rfl⟩ <;> clear h <;> rename' hk => h
    · left; left
      split at h
      · cases h; rfl
      · cases h
    · right
      refine ⟨e, rfl, ?_⟩
      split at h
      · cases h
      · rename_i e' h'
        cases h
        unfold State.memRead at h'
        split at h'
        · cases h'
        · rename_i h2; cases h'
          obtain ⟨hn, _, rfl⟩ := checkRange_error_cases h2
          have : n ≠ 0 := fun e => hn (by rw [e]; rfl)
          exact ⟨if_neg this, rfl⟩
  case ldVxMem x =>
    rcases complete_cases h with hk | ⟨e, hk, rfl⟩ <;> clear h <;> rename' hk => h
    · left; left
      split at h
      · cases h; rw [State.setRegs_eq]; rfl
      · cases h
    · right
      refine ⟨e, rfl, ?_⟩
      split at h
      · cases h
      · rename_i e' h'
        cases h
        unfold State.memRead at h'
        split at h'
        · cases h'
        · rename_i h2; cases h'
          obtain ⟨hn, _, rfl⟩ := checkRange_error_cases h2
          exact ⟨rfl, rfl⟩
  case ldBVx x =>
    rcases complete_cases h with hk | ⟨e, hk, rfl⟩ <;> clear h <;> rename' hk => h
    · rcases State.memWrite_cases h with ⟨h, _⟩ | ⟨h, _⟩
      · left; left; cases h; rw [State.writeBytes_eq]; rfl
      · cases h
    · rcases State.memWrite_cases h with ⟨h, _⟩ | ⟨h, _⟩
      · cases h
      · right; cases h; exact ⟨_, rfl, rfl, rfl⟩
  case ldMemVx x =>
    rcases complete_cases h with hk | ⟨e, hk, rfl⟩ <;> clear h <;> rename' hk => h
    · rcases State.memWrite_cases h with ⟨h, _⟩ | ⟨h, _⟩
      · left; left; cases h; rw [State.writeBytes_eq]; rfl
      · cases h
    · rcases State.memWrite_cases h with ⟨h, _⟩ | ⟨h, _⟩
      · cases h
      · right; cases h; exact ⟨_, rfl, rfl, rfl⟩
  case skp x =>
    rcases complete_cases h with hk | ⟨e, hk, rfl⟩ <;> clear h <;> rename' hk => h
    · left; left; unfold keyOfByte at h
      split at h
      · cases h; simp
      · cases h
    · right; unfold keyOfByte at h
      split at h
      · cases h
      · rename_i e' h'; cases h
        split at h'
        · cases h'
        · cases h'; exact ⟨_, rfl, rfl, x, .inl rfl, by omega, rfl⟩
  case sknp x =>
    rcases complete_cases h with hk | ⟨e, hk, rfl⟩ <;> clear h <;> rename' hk => h
    · left; left; unfold keyOfByte at h
      split at h
      · cases h; simp
      · cases h
    · right; unfold keyOfByte at h
      split at h
      · cases h
      · rename_i e' h'; cases h
        split at h'
        · cases h'
        · cases h'; exact ⟨_, rfl, rfl, x, .inr rfl, by omega, rfl⟩
  case ldVxK x => left; right; cases h; exact ⟨x, rfl, rfl⟩
  all_goals
    left; left
    cases h
    first
    | rfl
    | simp

end Sys2Proof.Machine
end

