-- ==== Sys2Proof/Laws/Display.lean ====
section
/-! SUPPORT. The laws of the blitter, for one sprite bit, one row of bits and a list of rows in turn: what each pixel
becomes, and when the collision flag is raised; then DXYN as one equation for each of its outcomes. -/

namespace Sys2Proof.Machine

/-! One sprite bit. -/

/-- A pixel after one sprite bit: inverted where the bit is set and lands on it, kept otherwise. -/
theorem Blit.pixel_bit (x0 y0 : Byte) (r : Nat) (row : Byte) (b : Blit) (col : Nat) (x y) :
    (Blit.bit x0 y0 r row b col).fb.pixel x y =
      (b.fb.pixel x y ^^ (row.getLsbD (7 - col) && decide (x = blitColumn x0 col ∧ y = blitRow y0 r))) := by
  unfold Blit.bit
  split
  · rename_i h; rw [Blit.pixel_flip, h, Bool.true_and]
  · rename_i h; simp [h]

/-- The collision after one sprite bit. -/
theorem Blit.c_bit (x0 y0 : Byte) (r : Nat) (row : Byte) (b : Blit) (col : Nat) :
    (Blit.bit x0 y0 r row b col).c =
      (b.c || (row.getLsbD (7 - col) && b.fb.pixel (blitColumn x0 col) (blitRow y0 r))) := by
  unfold Blit.bit
  split
  · rename_i h; rw [Blit.c_flip, h, Bool.true_and]
  · rename_i h; simp [h]

/-- The 8 columns of a row land on 8 columns. -/
theorem blitColumn_inj {x0 : Byte} {c c' : Nat} (h : c < 8) (h' : c' < 8)
    (e : blitColumn x0 c = blitColumn x0 c') : c = c' := by
  have := congrArg Fin.val e
  simp only [blitColumn, Fin.ofNat] at this
  omega

/-- The rows of a sprite, at most 15, land on as many rows. -/
theorem blitRow_inj {y0 : Byte} {c c' : Nat} (h : c < 16) (h' : c' < 16) (e : blitRow y0 c = blitRow y0 c') : c = c' := by
  have := congrArg Fin.val e
  simp only [blitRow, Fin.ofNat] at this
  omega

/-! A list of columns of one row. -/

/-- A pixel no column lands on is kept. -/
theorem Blit.pixel_cols_miss (x0 y0 r row) (cs : List Nat) (b : Blit) (x y)
    (h : ∀ col ∈ cs, ¬(x = blitColumn x0 col ∧ y = blitRow y0 r)) :
    (cs.foldl (Blit.bit x0 y0 r row) b).fb.pixel x y = b.fb.pixel x y := by
  induction cs generalizing b with
  | nil => rfl
  | cons c cs ih =>
    rw [List.foldl_cons, ih _ (fun col hc => h col (List.mem_cons_of_mem _ hc)), Blit.pixel_bit,
      decide_eq_false (h c (by simp))]
    simp

/-- The pixel a column lands on is flipped by that column's bit alone. -/
theorem Blit.pixel_cols_hit (x0 y0 r row) (cs : List Nat) (b : Blit) (col) (hn : cs.Nodup)
    (h8 : ∀ c ∈ cs, c < 8) (hc : col ∈ cs) :
    (cs.foldl (Blit.bit x0 y0 r row) b).fb.pixel (blitColumn x0 col) (blitRow y0 r) =
      (b.fb.pixel (blitColumn x0 col) (blitRow y0 r) ^^ row.getLsbD (7 - col)) := by
  induction cs generalizing b with
  | nil => cases hc
  | cons c cs ih =>
    rw [List.foldl_cons]
    obtain ⟨hn1, hn2⟩ := List.nodup_cons.mp hn
    by_cases e : col = c
    · subst e
      rw [Blit.pixel_cols_miss, Blit.pixel_bit]
      · simp
      · rintro c' hc' ⟨e, _⟩
        have := blitColumn_inj (h8 col (by simp)) (h8 c' (List.mem_cons_of_mem _ hc')) e
        exact hn1 (this ▸ hc')
    · have hc' : col ∈ cs := (List.mem_cons.mp hc).resolve_left e
      rw [ih _ hn2 (fun c hc => h8 c (List.mem_cons_of_mem _ hc)) hc', Blit.pixel_bit, decide_eq_false]
      · simp
      · rintro ⟨e', _⟩; exact e (blitColumn_inj (h8 col hc) (h8 c (by simp)) e')

/-- The collision after the columns: one that was there, or a set bit over a set pixel. -/
theorem Blit.c_cols (x0 y0 r row) (cs : List Nat) (b : Blit) (hn : cs.Nodup) (h8 : ∀ c ∈ cs, c < 8) :
    (cs.foldl (Blit.bit x0 y0 r row) b).c = true ↔ b.c = true ∨
      ∃ col ∈ cs, row.getLsbD (7 - col) = true ∧ b.fb.pixel (blitColumn x0 col) (blitRow y0 r) = true := by
  induction cs generalizing b with
  | nil => simp
  | cons c cs ih =>
    obtain ⟨hn1, hn2⟩ := List.nodup_cons.mp hn
    rw [List.foldl_cons, ih _ hn2 (fun c hc => h8 c (List.mem_cons_of_mem _ hc)), Blit.c_bit]
    have : ∀ col ∈ cs, (Blit.bit x0 y0 r row b c).fb.pixel (blitColumn x0 col) (blitRow y0 r) =
        b.fb.pixel (blitColumn x0 col) (blitRow y0 r) := by
      intro col hcol
      rw [Blit.pixel_bit, decide_eq_false]
      · simp
      · rintro ⟨e', _⟩
        have := blitColumn_inj (h8 col (List.mem_cons_of_mem _ hcol)) (h8 c (by simp)) e'
        exact hn1 (this ▸ hcol)
    constructor
    · rintro (h | ⟨col, hcol, h1, h2⟩)
      · rw [Bool.or_eq_true, Bool.and_eq_true] at h
        rcases h with h | h
        · exact .inl h
        · exact .inr ⟨c, by simp, h.1, h.2⟩
      · rw [this col hcol] at h2
        exact .inr ⟨col, List.mem_cons_of_mem _ hcol, h1, h2⟩
    · rintro (h | ⟨col, hcol, h1, h2⟩)
      · left; simp [h]
      · rcases List.mem_cons.mp hcol with rfl | hcol
        · left; simp [h1, h2]
        · right; exact ⟨col, hcol, h1, by rw [this col hcol]; exact h2⟩

/-! A list of rows. -/

/-- The columns of a sprite row, in the blitter's order. -/
def spriteColumns : List Nat := [0, 1, 2, 3, 4, 5, 6, 7]

theorem spriteColumns_nodup : spriteColumns.Nodup := by decide

theorem spriteColumns_lt : ∀ c ∈ spriteColumns, c < 8 := by decide

theorem mem_spriteColumns {c : Nat} (h : c < 8) : c ∈ spriteColumns := by
  unfold spriteColumns; interval_cases c <;> simp

/-- A pixel no sprite pixel lands on is kept. -/
theorem Blit.pixel_rows_miss (x0 y0) (rows : List Byte) (r0 : Nat) (b : Blit) (x y)
    (h : ∀ r col, r0 ≤ r → r < r0 + rows.length → col < 8 → ¬(x = blitColumn x0 col ∧ y = blitRow y0 r)) :
    (Blit.rows x0 y0 r0 rows b).fb.pixel x y = b.fb.pixel x y := by
  induction rows generalizing b r0 with
  | nil => rfl
  | cons row rows ih =>
    simp only [List.length_cons] at h
    rw [Blit.rows, ih (r0 + 1) _ (fun r col h1 h2 h3 => h r col (by omega) (by omega) h3)]
    exact Blit.pixel_cols_miss x0 y0 r0 row spriteColumns b x y
      (fun col hc => h r0 col (by omega) (by omega) (spriteColumns_lt col hc))

/-- A row's pixels outside its own screen row are kept. -/
theorem Blit.pixel_row_of_ne (x0 y0 r row) (b : Blit) (x y) (h : y ≠ blitRow y0 r) :
    (Blit.row x0 y0 r row b).fb.pixel x y = b.fb.pixel x y :=
  Blit.pixel_cols_miss x0 y0 r row spriteColumns b x y (fun _ _ e => h e.2)

/-- The pixel sprite pixel (r, col) lands on is flipped by that sprite bit alone. -/
theorem Blit.pixel_rows_hit (x0 y0) (rows : List Byte) (r0 : Nat) (b : Blit) (r col) (hr0 : r0 ≤ r)
    (hr : r < r0 + rows.length)
    (h16 : r0 + rows.length ≤ 16) (hc : col < 8) :
    (Blit.rows x0 y0 r0 rows b).fb.pixel (blitColumn x0 col) (blitRow y0 r) =
      (b.fb.pixel (blitColumn x0 col) (blitRow y0 r) ^^ (rows[r - r0]'(by omega)).getLsbD (7 - col)) := by
  induction rows generalizing b r0 with
  | nil => simp at hr; omega
  | cons row rows ih =>
    simp only [List.length_cons] at hr h16
    rw [Blit.rows]
    by_cases e : r = r0
    · subst e
      rw [Blit.pixel_rows_miss]
      · have := Blit.pixel_cols_hit x0 y0 r row spriteColumns b col spriteColumns_nodup
          spriteColumns_lt (mem_spriteColumns hc)
        show (List.foldl (Blit.bit x0 y0 r row) b spriteColumns).fb.pixel _ _ = _
        rw [this]; simp
      · rintro r' c' h1 h2 _ ⟨_, e⟩
        have := blitRow_inj (by omega) (by omega) e
        omega
    · rw [ih (r0 + 1) _ (by omega) (by omega) (by omega), Blit.pixel_row_of_ne]
      · congr 2
        rw [List.getElem_cons, dif_neg (by omega)]; congr 1
      · intro e'; exact e (blitRow_inj (by omega) (by omega) e')

/-- The collision after the rows: one that was there, or a set bit over a pixel set before any of them. -/
theorem Blit.c_rows (x0 y0) (rows : List Byte) (r0 : Nat) (b : Blit) (h16 : r0 + rows.length ≤ 16) :
    (Blit.rows x0 y0 r0 rows b).c = true ↔ b.c = true ∨
      ∃ (j : Nat) (hj : j < rows.length) (col : Nat), col < 8 ∧ rows[j].getLsbD (7 - col) = true ∧
        b.fb.pixel (blitColumn x0 col) (blitRow y0 (r0 + j)) = true := by
  induction rows generalizing b r0 with
  | nil => simp [Blit.rows]
  | cons row rows ih =>
    simp only [List.length_cons] at h16
    rw [Blit.rows, ih (r0 + 1) _ (by omega)]
    have hc : (Blit.row x0 y0 r0 row b).c = true ↔ _ :=
      Blit.c_cols x0 y0 r0 row spriteColumns b spriteColumns_nodup spriteColumns_lt
    have hp : ∀ j < rows.length, ∀ x, (Blit.row x0 y0 r0 row b).fb.pixel x (blitRow y0 (r0 + 1 + j)) =
        b.fb.pixel x (blitRow y0 (r0 + 1 + j)) := by
      intro j hj x
      apply Blit.pixel_row_of_ne
      intro e
      have := blitRow_inj (by omega) (by omega) e
      omega
    rw [hc]
    constructor
    · rintro ((h | ⟨col, hcol, h1, h2⟩) | ⟨j, hj, col, h1, h2, h3⟩)
      · exact .inl h
      · exact .inr ⟨0, by simp, col, spriteColumns_lt col hcol, h1, h2⟩
      · rw [hp j hj] at h3
        exact .inr ⟨j + 1, by simpa using hj, col, h1, by simpa using h2, by
          rw [← Nat.add_assoc, Nat.add_right_comm]; exact h3⟩
    · rintro (h | ⟨j, hj, col, h1, h2, h3⟩)
      · exact .inl (.inl h)
      · cases j with
        | zero => exact .inl (.inr ⟨col, mem_spriteColumns h1, h2, h3⟩)
        | succ j =>
          simp only [List.length_cons] at hj
          refine .inr ⟨j, by omega, col, h1, by simpa using h2, ?_⟩
          rw [hp j (by omega)]
          rw [← Nat.add_assoc, Nat.add_right_comm] at h3; exact h3

/-- The N sprite bytes at I. -/
def State.spriteRows (s : State) (n : Nat) : List Byte := (List.range n).map (fun k => s.readByte (s.i.toNat + k))

theorem State.spriteRows_length (s : State) (n : Nat) : (s.spriteRows n).length = n := by simp [State.spriteRows]

theorem State.spriteRows_getElem (s : State) (n k : Nat) (h : k < (s.spriteRows n).length) :
    (s.spriteRows n)[k] = s.readByte (s.i.toNat + k) := by simp [State.spriteRows]

/-! DXYN. -/

/-- With every sprite byte in memory: the blitter's framebuffer, and its collision in VF. -/
theorem exec_drw_ok {x y : RegIdx} {n : Nibble} {s : State} (h : n.toNat = 0 ∨ s.effAddr n.toNat ≤ 4096) :
    exec (.drw x y n) s = .next
      (({ s.advance with fb := (blit s.fb (s.reg x) (s.reg y) (s.spriteRows n.toNat)).fb } : State).setReg vf
        (flagByte (blit s.fb (s.reg x) (s.reg y) (s.spriteRows n.toNat)).c)) := by
  show complete _ _ _ = _
  rw [State.memRead_ok (s := s.advance) (a := s.effAddr 0) h]
  rfl

/-- With a sprite byte out of memory: the fault, and nothing drawn. -/
theorem exec_drw_error {x y : RegIdx} {n : Nibble} {s : State} (h : 0 < n.toNat) (h2 : 4096 < s.effAddr n.toNat) :
    exec (.drw x y n) s = .next (s.takeFault (some (encode (.drw x y n)))
      { code := .memOutOfBounds, info := some (BitVec.ofNat 16 (max (s.effAddr 0) Config.memSize)) }) := by
  show complete _ _ _ = _
  rw [State.memRead_error (s := s.advance) (a := s.effAddr 0) (by
    rw [Config.memSize_eq]; simp only [State.effAddr] at *; omega)]
  rfl

end Sys2Proof.Machine
end

