-- ==== Sys2Proof/Laws/PerInstr.lean ====
section
/-! SUPPORT. The statements made per instruction (LAWS.json). RowMatch: the encoded word of an instruction lies in that
instruction's own row of the opcode map (30_encoding.md R113). -/

namespace Sys2Proof.Laws

/-- The word of a well-formed i is covered by every row of the opcode map that bears i's mnemonic; for a NOP, by no row. -/
def RowMatch.Statement (i : Instr) : Prop :=
  i.wf = true → ∀ r ∈ opcodeMap,
    (r.mnemonic = i.mnemonic → r.covers (encode i) = true) ∧ (i.mnemonic = "NOP" → r.covers (encode i) = false)

/-- The shape of every row's lemma: the map has one row of that mnemonic, and the word matches it. -/
theorem RowMatch.of_row {i : Instr} {mask value : Word}
    (row : opcodeMap.filter (fun r => r.mnemonic == i.mnemonic) = [⟨i.mnemonic, mask, value⟩])
    (notNop : i.mnemonic ≠ "NOP") (word : encode i &&& mask = value) : RowMatch.Statement i := by
  refine fun _ r hr => ⟨fun h => ?_, fun e => absurd e notNop⟩
  have hm : r ∈ opcodeMap.filter (fun r => r.mnemonic == i.mnemonic) := List.mem_filter.mpr ⟨hr, by simpa using h⟩
  rw [row, List.mem_singleton] at hm
  subst hm
  simpa [OpcodeRow.covers] using word

theorem RowMatch.cls : RowMatch.Statement (.cls) :=
  RowMatch.of_row (mask := 0xFFFF) (value := 0x00E0) rfl (by simp [Instr.mnemonic]) (by decide)

theorem RowMatch.ret : RowMatch.Statement (.ret) :=
  RowMatch.of_row (mask := 0xFFFF) (value := 0x00EE) rfl (by simp [Instr.mnemonic]) (by decide)

theorem RowMatch.jp (nnn : Addr) : RowMatch.Statement (.jp nnn) :=
  RowMatch.of_row (mask := 0xF000) (value := 0x1000) rfl (by simp [Instr.mnemonic]) (mask_F000.mpr (fieldG_formA _ _))

theorem RowMatch.call (nnn : Addr) : RowMatch.Statement (.call nnn) :=
  RowMatch.of_row (mask := 0xF000) (value := 0x2000) rfl (by simp [Instr.mnemonic]) (mask_F000.mpr (fieldG_formA _ _))

theorem RowMatch.seVxNn (x : RegIdx) (nn : Byte) : RowMatch.Statement (.seVxNn x nn) :=
  RowMatch.of_row (mask := 0xF000) (value := 0x3000) rfl (by simp [Instr.mnemonic]) (mask_F000.mpr (fieldG_formXNN _ _ _))

theorem RowMatch.sneVxNn (x : RegIdx) (nn : Byte) : RowMatch.Statement (.sneVxNn x nn) :=
  RowMatch.of_row (mask := 0xF000) (value := 0x4000) rfl (by simp [Instr.mnemonic]) (mask_F000.mpr (fieldG_formXNN _ _ _))

theorem RowMatch.seVxVy (x : RegIdx) (y : RegIdx) : RowMatch.Statement (.seVxVy x y) :=
  RowMatch.of_row (mask := 0xF00F) (value := 0x5000) rfl (by simp [Instr.mnemonic]) (mask_F00F.mpr ⟨fieldG_formXYN _ _ _ _, fieldN_formXYN _ _ _ _⟩)

theorem RowMatch.sneVxVy (x : RegIdx) (y : RegIdx) : RowMatch.Statement (.sneVxVy x y) :=
  RowMatch.of_row (mask := 0xF00F) (value := 0x9000) rfl (by simp [Instr.mnemonic]) (mask_F00F.mpr ⟨fieldG_formXYN _ _ _ _, fieldN_formXYN _ _ _ _⟩)

theorem RowMatch.ldVxNn (x : RegIdx) (nn : Byte) : RowMatch.Statement (.ldVxNn x nn) :=
  RowMatch.of_row (mask := 0xF000) (value := 0x6000) rfl (by simp [Instr.mnemonic]) (mask_F000.mpr (fieldG_formXNN _ _ _))

theorem RowMatch.addVxNn (x : RegIdx) (nn : Byte) : RowMatch.Statement (.addVxNn x nn) :=
  RowMatch.of_row (mask := 0xF000) (value := 0x7000) rfl (by simp [Instr.mnemonic]) (mask_F000.mpr (fieldG_formXNN _ _ _))

theorem RowMatch.ldVxVy (x : RegIdx) (y : RegIdx) : RowMatch.Statement (.ldVxVy x y) :=
  RowMatch.of_row (mask := 0xF00F) (value := 0x8000) rfl (by simp [Instr.mnemonic]) (mask_F00F.mpr ⟨fieldG_formXYN _ _ _ _, fieldN_formXYN _ _ _ _⟩)

theorem RowMatch.or (x : RegIdx) (y : RegIdx) : RowMatch.Statement (.or x y) :=
  RowMatch.of_row (mask := 0xF00F) (value := 0x8001) rfl (by simp [Instr.mnemonic]) (mask_F00F.mpr ⟨fieldG_formXYN _ _ _ _, fieldN_formXYN _ _ _ _⟩)

theorem RowMatch.and (x : RegIdx) (y : RegIdx) : RowMatch.Statement (.and x y) :=
  RowMatch.of_row (mask := 0xF00F) (value := 0x8002) rfl (by simp [Instr.mnemonic]) (mask_F00F.mpr ⟨fieldG_formXYN _ _ _ _, fieldN_formXYN _ _ _ _⟩)

theorem RowMatch.xor (x : RegIdx) (y : RegIdx) : RowMatch.Statement (.xor x y) :=
  RowMatch.of_row (mask := 0xF00F) (value := 0x8003) rfl (by simp [Instr.mnemonic]) (mask_F00F.mpr ⟨fieldG_formXYN _ _ _ _, fieldN_formXYN _ _ _ _⟩)

theorem RowMatch.addVxVy (x : RegIdx) (y : RegIdx) : RowMatch.Statement (.addVxVy x y) :=
  RowMatch.of_row (mask := 0xF00F) (value := 0x8004) rfl (by simp [Instr.mnemonic]) (mask_F00F.mpr ⟨fieldG_formXYN _ _ _ _, fieldN_formXYN _ _ _ _⟩)

theorem RowMatch.sub (x : RegIdx) (y : RegIdx) : RowMatch.Statement (.sub x y) :=
  RowMatch.of_row (mask := 0xF00F) (value := 0x8005) rfl (by simp [Instr.mnemonic]) (mask_F00F.mpr ⟨fieldG_formXYN _ _ _ _, fieldN_formXYN _ _ _ _⟩)

theorem RowMatch.shr (x : RegIdx) (y : RegIdx) : RowMatch.Statement (.shr x y) :=
  RowMatch.of_row (mask := 0xF00F) (value := 0x8006) rfl (by simp [Instr.mnemonic]) (mask_F00F.mpr ⟨fieldG_formXYN _ _ _ _, fieldN_formXYN _ _ _ _⟩)

theorem RowMatch.subn (x : RegIdx) (y : RegIdx) : RowMatch.Statement (.subn x y) :=
  RowMatch.of_row (mask := 0xF00F) (value := 0x8007) rfl (by simp [Instr.mnemonic]) (mask_F00F.mpr ⟨fieldG_formXYN _ _ _ _, fieldN_formXYN _ _ _ _⟩)

theorem RowMatch.shl (x : RegIdx) (y : RegIdx) : RowMatch.Statement (.shl x y) :=
  RowMatch.of_row (mask := 0xF00F) (value := 0x800E) rfl (by simp [Instr.mnemonic]) (mask_F00F.mpr ⟨fieldG_formXYN _ _ _ _, fieldN_formXYN _ _ _ _⟩)

theorem RowMatch.ldI (nnn : Addr) : RowMatch.Statement (.ldI nnn) :=
  RowMatch.of_row (mask := 0xF000) (value := 0xA000) rfl (by simp [Instr.mnemonic]) (mask_F000.mpr (fieldG_formA _ _))

theorem RowMatch.jpV0 (nnn : Addr) : RowMatch.Statement (.jpV0 nnn) :=
  RowMatch.of_row (mask := 0xF000) (value := 0xB000) rfl (by simp [Instr.mnemonic]) (mask_F000.mpr (fieldG_formA _ _))

theorem RowMatch.rnd (x : RegIdx) (nn : Byte) : RowMatch.Statement (.rnd x nn) :=
  RowMatch.of_row (mask := 0xF000) (value := 0xC000) rfl (by simp [Instr.mnemonic]) (mask_F000.mpr (fieldG_formXNN _ _ _))

theorem RowMatch.drw (x : RegIdx) (y : RegIdx) (n : Nibble) : RowMatch.Statement (.drw x y n) :=
  RowMatch.of_row (mask := 0xF000) (value := 0xD000) rfl (by simp [Instr.mnemonic]) (mask_F000.mpr (fieldG_formXYN _ _ _ _))

theorem RowMatch.skp (x : RegIdx) : RowMatch.Statement (.skp x) :=
  RowMatch.of_row (mask := 0xF0FF) (value := 0xE09E) rfl (by simp [Instr.mnemonic]) (mask_F0FF.mpr ⟨fieldG_formXNN _ _ _, fieldNN_formXNN _ _ _⟩)

theorem RowMatch.sknp (x : RegIdx) : RowMatch.Statement (.sknp x) :=
  RowMatch.of_row (mask := 0xF0FF) (value := 0xE0A1) rfl (by simp [Instr.mnemonic]) (mask_F0FF.mpr ⟨fieldG_formXNN _ _ _, fieldNN_formXNN _ _ _⟩)

theorem RowMatch.ldVxDt (x : RegIdx) : RowMatch.Statement (.ldVxDt x) :=
  RowMatch.of_row (mask := 0xF0FF) (value := 0xF007) rfl (by simp [Instr.mnemonic]) (mask_F0FF.mpr ⟨fieldG_formXNN _ _ _, fieldNN_formXNN _ _ _⟩)

theorem RowMatch.ldVxK (x : RegIdx) : RowMatch.Statement (.ldVxK x) :=
  RowMatch.of_row (mask := 0xF0FF) (value := 0xF00A) rfl (by simp [Instr.mnemonic]) (mask_F0FF.mpr ⟨fieldG_formXNN _ _ _, fieldNN_formXNN _ _ _⟩)

theorem RowMatch.ldDtVx (x : RegIdx) : RowMatch.Statement (.ldDtVx x) :=
  RowMatch.of_row (mask := 0xF0FF) (value := 0xF015) rfl (by simp [Instr.mnemonic]) (mask_F0FF.mpr ⟨fieldG_formXNN _ _ _, fieldNN_formXNN _ _ _⟩)

theorem RowMatch.ldStVx (x : RegIdx) : RowMatch.Statement (.ldStVx x) :=
  RowMatch.of_row (mask := 0xF0FF) (value := 0xF018) rfl (by simp [Instr.mnemonic]) (mask_F0FF.mpr ⟨fieldG_formXNN _ _ _, fieldNN_formXNN _ _ _⟩)

theorem RowMatch.addIVx (x : RegIdx) : RowMatch.Statement (.addIVx x) :=
  RowMatch.of_row (mask := 0xF0FF) (value := 0xF01E) rfl (by simp [Instr.mnemonic]) (mask_F0FF.mpr ⟨fieldG_formXNN _ _ _, fieldNN_formXNN _ _ _⟩)

theorem RowMatch.ldFVx (x : RegIdx) : RowMatch.Statement (.ldFVx x) :=
  RowMatch.of_row (mask := 0xF0FF) (value := 0xF029) rfl (by simp [Instr.mnemonic]) (mask_F0FF.mpr ⟨fieldG_formXNN _ _ _, fieldNN_formXNN _ _ _⟩)

theorem RowMatch.ldBVx (x : RegIdx) : RowMatch.Statement (.ldBVx x) :=
  RowMatch.of_row (mask := 0xF0FF) (value := 0xF033) rfl (by simp [Instr.mnemonic]) (mask_F0FF.mpr ⟨fieldG_formXNN _ _ _, fieldNN_formXNN _ _ _⟩)

theorem RowMatch.ldMemVx (x : RegIdx) : RowMatch.Statement (.ldMemVx x) :=
  RowMatch.of_row (mask := 0xF0FF) (value := 0xF055) rfl (by simp [Instr.mnemonic]) (mask_F0FF.mpr ⟨fieldG_formXNN _ _ _, fieldNN_formXNN _ _ _⟩)

theorem RowMatch.ldVxMem (x : RegIdx) : RowMatch.Statement (.ldVxMem x) :=
  RowMatch.of_row (mask := 0xF0FF) (value := 0xF065) rfl (by simp [Instr.mnemonic]) (mask_F0FF.mpr ⟨fieldG_formXNN _ _ _, fieldNN_formXNN _ _ _⟩)

theorem RowMatch.nop (w : Word) : RowMatch.Statement (.nop w) := by
  intro hw r hr
  have noRow : ∀ r ∈ opcodeMap, r.mnemonic ≠ "NOP" := by decide
  refine ⟨fun e => absurd e (noRow r hr), fun _ => ?_⟩
  simp only [Instr.wf, definedWord, Bool.not_eq_true', List.any_eq_false] at hw
  show r.covers w = false
  simpa using hw r hr

end Sys2Proof.Laws
end

