-- ==== Sys2Proof/Tests/Slice0.lean ====
section
/-! SUPPORT. The model's own tests. Every expected value is the spec's: 30_encoding.md R100-R113 for the decoding, the
vectors of 95_test_vectors.md for the steps and the ports. The last part shows, for every statement with hypotheses, states
and operands that meet them, each clause at a boundary value. -/

namespace Sys2Proof.Tests

open Sys2Proof Sys2Proof.Machine

/-! WellFormed: the one check is that a NOP's word is covered by no row (R107). -/

theorem test_wf_refuses_nop_of_a_defined_word : (Instr.nop 0x00E0).wf = false ∧ (Instr.nop 0xF165).wf = false := by decide

theorem test_wf_accepts_nop_of_the_no_op_space :
    (Instr.nop 0x0000).wf = true ∧ (Instr.nop 0x5121).wf = true ∧ (Instr.nop 0xFFFF).wf = true := by decide

/-! Decode: one word of every row, bit by bit from its pattern in R113. -/

theorem test_decode_cls : decodeWord 0b0000_0000_1110_0000 = .cls := by decide
theorem test_decode_ret : decodeWord 0b0000_0000_1110_1110 = .ret := by decide
theorem test_decode_jp : decodeWord 0b0001_1010_1011_1100 = .jp 0xABC := by decide
theorem test_decode_call : decodeWord 0b0010_0011_0000_0001 = .call 0x301 := by decide
theorem test_decode_seVxNn : decodeWord 0b0011_1010_0100_0010 = .seVxNn 0xA 0x42 := by decide
theorem test_decode_sneVxNn : decodeWord 0b0100_0011_1000_0001 = .sneVxNn 3 0x81 := by decide
theorem test_decode_seVxVy : decodeWord 0b0101_0001_0010_0000 = .seVxVy 1 2 := by decide
theorem test_decode_sneVxVy : decodeWord 0b1001_1010_1011_0000 = .sneVxVy 0xA 0xB := by decide
theorem test_decode_ldVxNn : decodeWord 0b0110_1010_0010_1011 = .ldVxNn 0xA 0x2B := by decide
theorem test_decode_addVxNn : decodeWord 0b0111_1111_0000_0001 = .addVxNn 0xF 0x01 := by decide
theorem test_decode_ldVxVy : decodeWord 0b1000_0000_0001_0000 = .ldVxVy 0 1 := by decide
theorem test_decode_or : decodeWord 0b1000_0111_0001_0001 = .or 7 1 := by decide
theorem test_decode_and : decodeWord 0b1000_0000_1001_0010 = .and 0 9 := by decide
theorem test_decode_xor : decodeWord 0b1000_0101_0001_0011 = .xor 5 1 := by decide
theorem test_decode_addVxVy : decodeWord 0b1000_0000_1111_0100 = .addVxVy 0 0xF := by decide
theorem test_decode_sub : decodeWord 0b1000_1111_0001_0101 = .sub 0xF 1 := by decide
theorem test_decode_shr : decodeWord 0b1000_1010_1011_0110 = .shr 0xA 0xB := by decide
theorem test_decode_subn : decodeWord 0b1000_0010_0001_0111 = .subn 2 1 := by decide
theorem test_decode_shl : decodeWord 0b1000_0010_0100_1110 = .shl 2 4 := by decide
theorem test_decode_ldI : decodeWord 0b1010_0010_1111_0000 = .ldI 0x2F0 := by decide
theorem test_decode_jpV0 : decodeWord 0b1011_0011_0000_0000 = .jpV0 0x300 := by decide
theorem test_decode_rnd : decodeWord 0b1100_0011_0000_1111 = .rnd 3 0x0F := by decide
theorem test_decode_drw : decodeWord 0b1101_0001_0010_0101 = .drw 1 2 5 := by decide
theorem test_decode_skp : decodeWord 0b1110_0010_1001_1110 = .skp 2 := by decide
theorem test_decode_sknp : decodeWord 0b1110_0010_1010_0001 = .sknp 2 := by decide
theorem test_decode_ldVxDt : decodeWord 0b1111_0011_0000_0111 = .ldVxDt 3 := by decide
theorem test_decode_ldVxK : decodeWord 0b1111_0001_0000_1010 = .ldVxK 1 := by decide
theorem test_decode_ldDtVx : decodeWord 0b1111_0011_0001_0101 = .ldDtVx 3 := by decide
theorem test_decode_ldStVx : decodeWord 0b1111_0011_0001_1000 = .ldStVx 3 := by decide
theorem test_decode_addIVx : decodeWord 0b1111_0100_0001_1110 = .addIVx 4 := by decide
theorem test_decode_ldFVx : decodeWord 0b1111_0111_0010_1001 = .ldFVx 7 := by decide
theorem test_decode_ldBVx : decodeWord 0b1111_0101_0011_0011 = .ldBVx 5 := by decide
theorem test_decode_ldMemVx : decodeWord 0b1111_0010_0101_0101 = .ldMemVx 2 := by decide
theorem test_decode_ldVxMem : decodeWord 0b1111_0001_0110_0101 = .ldVxMem 1 := by decide

/-- The NOP words of the table of 95_test_vectors.md section 2.1. -/
theorem test_decode_nop :
    [0x0000, 0x01E0, 0x00EF, 0x0123, 0x5121, 0x8AB8].map decodeWord =
      [.nop 0x0000, .nop 0x01E0, .nop 0x00EF, .nop 0x0123, .nop 0x5121, .nop 0x8AB8] ∧
    [0x8ABF, 0x9AB1, 0xE19F, 0xF130, 0xFFFF].map decodeWord =
      [.nop 0x8ABF, .nop 0x9AB1, .nop 0xE19F, .nop 0xF130, .nop 0xFFFF] := by decide

/-- Bytes are decoded big-endian (R77), and a cut instruction by name. -/
theorem test_decode_bytes :
    decode [0x12, 0x34, 0x56] = .ok (.jp 0x234, [0x56]) ∧ decode [0x12] = .error .truncated := by decide

/-! Steps: the vectors of 95_test_vectors.md sections 2.2 to 2.7. -/

/-- The state the vectors start from: after RESET and LOAD, the pc at 0x200. -/
def start : State := { State.reset with pc := 0x200 }

/-- The state after one step that runs the word w placed at the pc, if the step answers a next state. -/
def after (w : Nat) (s : State) : Option State :=
  match step (s.withFetchWord 16 w) with
  | .next t => some t
  | _ => none

/-- The record a step leaves, if it leaves one. -/
def faultAfter (w : Nat) (s : State) : Option FaultRecord :=
  match (after w s).map State.status with
  | some (.fault r) => some r
  | _ => none

theorem test_cls : ∃ t, exec .cls { start.setReg 15 1 with fb := start.fb.setPixel 3 4 true } = .next t ∧
    t.fb.pixel 3 4 = false ∧ t.reg 15 = 1 ∧ t.pc = 0x202 :=
  ⟨_, rfl, Framebuffer.pixel_blank 3 4, rfl, rfl⟩

theorem test_ret : (after 0x00EE { start with sp := 1, stack := start.stack.set 0 0x202 }).map
    (fun t => (t.sp, t.pc, t.stack[0])) = some (0, 0x202, 0x202) := by decide

theorem test_ret_empty : faultAfter 0x00EE start = some ⟨.stackUnderflow, 0x200, some 0x00EE, none⟩ := by decide

theorem test_jp : (after 0x1234 start).map State.pc = some 0x234 := by decide

theorem test_call : (after 0x2300 start).map (fun t => (t.stack[0], t.sp, t.pc)) = some (0x202, 1, 0x300) := by decide

theorem test_call_full :
    (after 0x2300 { start with sp := 16 }).map (fun t => (t.status, t.sp, t.stack, t.pc)) =
      some (.fault ⟨.stackOverflow, 0x200, some 0x2300, none⟩, 16, start.stack, 0x200) := by decide

theorem test_seVxNn : (after 0x3342 (start.setReg 3 0x42)).map State.pc = some 0x204 ∧
    (after 0x3343 (start.setReg 3 0x42)).map State.pc = some 0x202 := by decide

/-- A skip at 0xFFC leaves the pc at 0x1000, without a fault. -/
theorem test_seVxNn_top : (after 0x3000 { start with pc := 0xFFC }).map (fun t => (t.pc, t.status)) =
    some (0x1000, .run) := by decide

theorem test_sneVxNn : (after 0x4342 (start.setReg 3 0x42)).map State.pc = some 0x202 ∧
    (after 0x4300 (start.setReg 3 0x42)).map State.pc = some 0x204 := by decide

theorem test_seVxVy : (after 0x5120 ((start.setReg 1 7).setReg 2 7)).map State.pc = some 0x204 ∧
    (after 0x5120 ((start.setReg 1 7).setReg 2 8)).map State.pc = some 0x202 := by decide

theorem test_sneVxVy : (after 0x9120 ((start.setReg 1 7).setReg 2 8)).map State.pc = some 0x204 ∧
    (after 0x9110 (start.setReg 1 7)).map State.pc = some 0x202 := by decide

theorem test_ldVxNn : (after 0x6A2B start).map (fun t => (t.reg 0xA, t.reg 15)) = some (0x2B, 0) := by decide

/-- 250 + 10 is 4 with no flag (conflict C5). -/
theorem test_addVxNn : (after 0x700A (start.setReg 0 0xFA)).map (fun t => (t.reg 0, t.reg 15)) = some (0x04, 0) := by decide

/-- 7F01 treats VF as a plain register. -/
theorem test_addVxNn_vf : (after 0x7F01 (start.setReg 15 5)).map (fun t => t.reg 15) = some 6 := by decide

theorem test_ldVxVy : (after 0x8010 (start.setReg 1 0x99)).map (fun t => t.reg 0) = some 0x99 := by decide

/-- VF is not reset. -/
theorem test_or : (after 0x8011 (((start.setReg 0 0xF0).setReg 1 0x0F).setReg 15 1)).map
    (fun t => (t.reg 0, t.reg 15)) = some (0xFF, 1) := by decide

theorem test_and : (after 0x8012 ((start.setReg 0 0xF0).setReg 1 0x3C)).map (fun t => t.reg 0) = some 0x30 := by decide

theorem test_xor : (after 0x8013 ((start.setReg 0 0xFF).setReg 1 0x0F)).map (fun t => t.reg 0) = some 0xF0 := by decide

theorem test_xor_self : (after 0x8003 (start.setReg 0 0x5A)).map (fun t => t.reg 0) = some 0 := by decide

theorem test_addVxVy : (after 0x8014 ((start.setReg 0 0xFF).setReg 1 0x01)).map (fun t => (t.reg 0, t.reg 15)) =
    some (0, 1) ∧
    (after 0x8014 ((start.setReg 0 0x7F).setReg 1 0x01)).map (fun t => (t.reg 0, t.reg 15)) = some (0x80, 0) := by decide

theorem test_addVxVy_vf : (after 0x8F14 ((start.setReg 15 0xF8).setReg 1 0x10)).map (fun t => t.reg 15) = some 1 ∧
    (after 0x80F4 ((start.setReg 0 0x10).setReg 15 0xF8)).map (fun t => (t.reg 0, t.reg 15)) = some (0x08, 1) := by decide

/-- The comparison is strict: equal operands give flag 0. -/
theorem test_sub : (after 0x8015 (((start.setReg 0 3).setReg 1 3).setReg 15 1)).map (fun t => (t.reg 0, t.reg 15)) =
    some (0, 0) ∧
    (after 0x8015 ((start.setReg 0 0x00).setReg 1 0x01)).map (fun t => (t.reg 0, t.reg 15)) = some (0xFF, 0) := by decide

/-- The machine with VF_ALIAS_MODE = SNAPSHOT. -/
def snapshot : State := { start with params := { defaultParams with vfAliasMode := .snapshot } }

/-- 8F15 under each value of VF_ALIAS_MODE. -/
theorem test_sub_vf : (after 0x8F15 ((start.setReg 15 0x0A).setReg 1 3)).map (fun t => t.reg 15) = some 0xFE ∧
    (after 0x8F15 ((snapshot.setReg 15 0x0A).setReg 1 3)).map (fun t => t.reg 15) = some 0x07 := by decide

/-- The Y field is ignored: V5 = 1 is not shifted and its bit makes no flag. -/
theorem test_shr : (after 0x8256 (((start.setReg 2 0x80).setReg 5 1).setReg 15 1)).map
    (fun t => (t.reg 2, t.reg 5, t.reg 15)) = some (0x40, 1, 0) := by decide

theorem test_shr_vf : (after 0x8F06 (start.setReg 15 3)).map (fun t => t.reg 15) = some 0 ∧
    (after 0x8F06 (snapshot.setReg 15 3)).map (fun t => t.reg 15) = some 1 := by decide

theorem test_subn : (after 0x8017 ((start.setReg 0 3).setReg 1 0x0A)).map (fun t => (t.reg 0, t.reg 15)) = some (7, 1) ∧
    (after 0x8017 (((start.setReg 0 1).setReg 1 0).setReg 15 1)).map (fun t => (t.reg 0, t.reg 15)) = some (0xFF, 0) := by
  decide

theorem test_subn_vf : (after 0x80F7 ((start.setReg 0 3).setReg 15 0x0A)).map (fun t => (t.reg 0, t.reg 15)) =
    some (0xFE, 1) ∧
    (after 0x80F7 ((snapshot.setReg 0 3).setReg 15 0x0A)).map (fun t => (t.reg 0, t.reg 15)) = some (7, 1) := by decide

/-- The flag is bit 7, not bit 0 (conflict C3). -/
theorem test_shl : (after 0x820E ((start.setReg 2 1).setReg 15 1)).map (fun t => (t.reg 2, t.reg 15)) = some (2, 0) ∧
    (after 0x820E (start.setReg 2 0x80)).map (fun t => (t.reg 2, t.reg 15)) = some (0, 1) := by decide

theorem test_shl_vf : (after 0x8F0E (start.setReg 15 0x81)).map (fun t => t.reg 15) = some 2 ∧
    (after 0x8F0E (snapshot.setReg 15 0x41)).map (fun t => t.reg 15) = some 0x82 := by decide

theorem test_ldI : (after 0xA2F0 start).map State.i = some 0x2F0 := by decide

theorem test_jpV0 : (after 0xBFFF (start.setReg 0 0xFF)).map State.pc = some 0x10FE := by decide

/-- C300: the mask of zero gives 0 whatever the random byte is. -/
theorem test_rnd_zero_mask : ∃ t, exec (.rnd 3 0) (start.setReg 3 5) = .next t ∧ t.reg 3 = 0 ∧ t.pc = 0x202 := by
  refine ⟨_, rfl, ?_, by rfl⟩
  show (State.setReg _ 3 (Config.randomByte start.draws &&& 0)).reg 3 = 0
  rw [State.reg_setReg, if_pos rfl]
  exact BitVec.and_zero

/-- The byte 0xFF drawn at column 63, row 5 wraps to columns 63 and 0 to 6, and no further (W3). -/
theorem test_drw_wraps : (after 0xD011 ({ (start.setReg 0 63).setReg 1 5 with i := 0x300 }.writeByte 0x300 0xFF)).map
    (fun t => ([62, 63, 0, 6, 7].map (fun x => t.fb.pixel x 5), t.reg 15)) =
    some ([false, true, true, true, false], 0) := by decide

/-- A set bit over a set pixel clears it and sets VF. -/
theorem test_drw_collides : (after 0xD011 ({ start with i := 0x300, fb := start.fb.setPixel 1 0 true }.writeByte 0x300 0x40)).map
    (fun t => (t.fb.pixel 1 0, t.reg 15)) = some (false, 1) := by decide

theorem test_skp : (after 0xE29E { start.setReg 2 5 with keys := start.keys.set 5 true }).map State.pc = some 0x204 ∧
    (after 0xE29E (start.setReg 2 5)).map State.pc = some 0x202 := by decide

theorem test_skp_fault : faultAfter 0xE29E (start.setReg 2 0x10) =
    some ⟨.keyIndexOutOfRange, 0x200, some 0xE29E, some 0x10⟩ := by decide

theorem test_sknp : (after 0xE2A1 (start.setReg 2 5)).map State.pc = some 0x204 ∧
    (after 0xE2A1 { start.setReg 2 5 with keys := start.keys.set 5 true }).map State.pc = some 0x202 := by decide

theorem test_sknp_fault : faultAfter 0xE2A1 (start.setReg 2 0xFF) =
    some ⟨.keyIndexOutOfRange, 0x200, some 0xE2A1, some 0xFF⟩ := by decide

theorem test_ldVxDt : (after 0xF307 { start with dt := 0x3C }).map (fun t => (t.reg 3, t.dt)) = some (0x3C, 0x3C) := by decide

theorem test_ldVxK : (after 0xF10A start).map (fun t => (t.status, t.pc)) = some (.waitKey 1, 0x202) := by decide

/-- A held key does not end the wait (D14). -/
theorem test_ldVxK_held : (after 0xF10A { start with keys := start.keys.set 7 true }).map State.status =
    some (.waitKey 1) := by decide

theorem test_ldDtVx : (after 0xF315 (start.setReg 3 0x3C)).map (fun t => (t.dt, t.st)) = some (0x3C, 0) := by decide

theorem test_ldStVx : (after 0xF318 (start.setReg 3 2)).map (fun t => (t.dt, t.st)) = some (0, 2) := by decide

theorem test_addIVx : (after 0xF41E { (start.setReg 4 0x20).setReg 15 5 with i := 0x300 }).map
    (fun t => (t.i, t.reg 15)) = some (0x320, 5) := by decide

theorem test_addIVx_wraps : (after 0xF11E { start.setReg 1 2 with i := 0xFFFF }).map State.i = some 1 ∧
    (after 0xF11E { start.setReg 1 1 with i := 0xFFF }).map State.i = some 0x1000 := by decide

/-- The digit is not masked (D11). -/
theorem test_ldFVx : (after 0xF729 (start.setReg 7 0x0A)).map State.i = some 0x032 ∧
    (after 0xF729 (start.setReg 7 0xFF)).map State.i = some 0x4FB := by decide

theorem test_ldBVx : (after 0xF533 { start.setReg 5 205 with i := 0xFFD }).map
    (fun t => (t.readByte 0xFFD, t.readByte 0xFFE, t.readByte 0xFFF)) = some (2, 0, 5) := by decide

theorem test_ldBVx_fault : faultAfter 0xF533 { start.setReg 5 255 with i := 0xFFE } =
    some ⟨.memOutOfBounds, 0x200, some 0xF533, some 0x1000⟩ ∧
    faultAfter 0xF533 { start with i := 0x2000 } = some ⟨.memOutOfBounds, 0x200, some 0xF533, some 0x2000⟩ := by decide

theorem test_ldMemVx : (after 0xF255 { ((start.setReg 0 0x11).setReg 1 0x22).setReg 2 0x33 with i := 0x400 }).map
    (fun t => ((List.range 4).map (fun k => t.readByte (0x400 + k)), t.i)) = some ([0x11, 0x22, 0x33, 0], 0x400) := by decide

/-- A store that fails on its last byte writes no byte. -/
theorem test_ldMemVx_fault : (after 0xF155 { start.setReg 0 0x42 with i := 0xFFF }).map
    (fun t => (t.status, t.readByte 0xFFF)) =
    some (.fault ⟨.memOutOfBounds, 0x200, some 0xF155, some 0x1000⟩, 0) := by decide

theorem test_ldVxMem : (after 0xF165 ({ (start.setReg 0 0xFF).setReg 2 0x77 with i := 0x400 }.writeBytes 0x400
    [0x11, 0x22])).map (fun t => (t.reg 0, t.reg 1, t.reg 2, t.i)) = some (0x11, 0x22, 0x77, 0x400) := by decide

theorem test_ldVxMem_fault : (after 0xF165 { start.setReg 0 5 with i := 0xFFF }).map (fun t => (t.status, t.reg 0)) =
    some (.fault ⟨.memOutOfBounds, 0x200, some 0xF165, some 0x1000⟩, 5) := by decide

theorem test_nop : (after 0x0000 start) = some { start with pc := 0x202 } := rfl

/-! Fetch, ports and reset (sections 2.2, 2.7 and 2.8). -/

theorem test_fetch_faults :
    step { start with pc := 0xFFF } =
      .next { start with pc := 0xFFF, status := .fault ⟨.memOutOfBounds, 0xFFF, none, some 0x1000⟩ } ∧
    step { start with pc := 0x10FE } =
      .next { start with pc := 0x10FE, status := .fault ⟨.memOutOfBounds, 0x10FE, none, some 0x10FE⟩ } := ⟨rfl, rfl⟩

theorem test_tick : (portTick { start with dt := 2, st := 0 }).dt = 1 ∧ (portTick { start with dt := 2, st := 0 }).st = 0 ∧
    (portTick { start with status := .waitKey 1, dt := 5 }).dt = 5 := by decide

theorem test_key_down_ends_a_wait :
    portKeyDown 7 { start with status := .waitKey 1 } = { start.setReg 1 7 with keys := start.keys.set 7 true } := rfl

theorem test_key_down_in_fault :
    portKeyDown 3 { start with status := .fault ⟨.stackUnderflow, 0x200, some 0xEE, none⟩ } =
      { start with status := .fault ⟨.stackUnderflow, 0x200, some 0xEE, none⟩ } := rfl

theorem test_load : portLoad [0x00, 0xE0] { start.setReg 3 9 with pc := 0x250 } =
    .next ((start.setReg 3 9).writeBytes 0x200 [0x00, 0xE0]) := rfl

theorem test_pixel_at : portPixelAt 10 20 { start with fb := start.fb.setPixel 10 20 true } = .ok true ∧
    portPixelAt 64 0 start = .error .pixelOutOfRange ∧ portPixelAt 0 32 start = .error .pixelOutOfRange := by decide

theorem test_reset_font : State.reset.readByte 0x000 = 0xF0 ∧ State.reset.readByte 0x04F = 0x80 ∧
    State.reset.readByte 0x050 = 0 ∧ State.reset.pc = 0 := by decide

/-! Witnesses: for every statement of Certificates/Slice0/Obligations.lean with hypotheses, a concrete state and operands
that meet all of them, each clause at a boundary value of its range. -/

/-- Memory is canonical in the start state, and after a store into it. -/
theorem start_memWf : start.MemWf := Memory.wf_nil _

theorem test_witness_FieldsAreBitRanges :
    (3 < 4 ∧ (fieldG 0x8000).getLsbD 3 = (0x8000 : Word).getLsbD (12 + 3)) ∧
    (7 < 8 ∧ (fieldNN 0x0080).getLsbD 7 = true) ∧ (11 < 12 ∧ (fieldNNN 0x0800).getLsbD 11 = true) := by decide

theorem test_witness_DecodeOfEncodeIsIdentity :
    (Instr.nop 0x5121).wf = true ∧ (Instr.jp 0xFFF).wf = true ∧ (Instr.drw 15 15 15).wf = true := by decide

theorem test_witness_OpcodeMapDecidesTheInstruction :
    (⟨"SHR", 0xF00F, 0x8006⟩ : OpcodeRow) ∈ opcodeMap ∧ (0x8FF6 : Word) &&& 0xF00F = 0x8006 ∧
    (∀ r ∈ opcodeMap, ¬ (0xFFFF : Word) &&& r.mask = r.value) := by decide

/-- The last address an instruction can be fetched at. -/
def atTop : State := { start with pc := 0xFFE }

theorem test_witness_StepRunsTheDecodedInstruction :
    atTop.status = .run ∧ atTop.pc.toNat + 1 < 4096 ∧
    (0x0000 : Word).toNat = 256 * (atTop.readByte atTop.pc.toNat).toNat + (atTop.readByte (atTop.pc.toNat + 1)).toNat := by
  decide

/-- The start state, in FAULT with a record that describes it. -/
def faulted : State := { start with status := .fault ⟨.stackUnderflow, 0x200, some 0x00EE, none⟩ }

theorem test_witness_StepOutsideRunChangesNothing :
    { start with status := .waitKey 3 : State }.status ≠ .run ∧ faulted.status ≠ .run := by decide

theorem test_witness_FetchOutOfRangeFaults :
    ({ start with pc := 0xFFF : State }.status = .run ∧ 0xFFF ≤ { start with pc := 0xFFF : State }.pc.toNat) ∧
    ({ start with pc := 0x1000 : State }.status = .run ∧ 0xFFF ≤ { start with pc := 0x1000 : State }.pc.toNat) := by decide

/-- A step from RUN that faults in its fetch, and one that faults in its execution (of the 00EE at the pc). -/
theorem test_witness_FaultsArePrecise :
    (∃ t r, step { start with pc := 0x1000 } = .next t ∧ t.status = .fault r ∧ r.opcode = none) ∧
    ∃ t r, step (start.withFetchWord 16 0x00EE) = .next t ∧ t.status = .fault r ∧ r.opcode = some 0x00EE :=
  ⟨⟨_, _, rfl, rfl, rfl⟩, ⟨_, _, rfl, rfl, rfl⟩⟩

/-- One step for each fault code of the execute phase (95_test_vectors.md section 2.9), and the fetch's. -/
theorem test_witness_FaultKindOfEachInstruction :
    (faultAfter 0x2200 { start with sp := 16 }).map (fun r => (r.code, r.opcode)) = some (.stackOverflow, some 0x2200) ∧
    (faultAfter 0x00EE start).map (fun r => (r.code, r.opcode)) = some (.stackUnderflow, some 0x00EE) ∧
    (faultAfter 0xE09E (start.setReg 0 0x10)).map (fun r => (r.code, r.opcode)) =
      some (.keyIndexOutOfRange, some 0xE09E) ∧
    (faultAfter 0xF055 { start with i := 0x1000 }).map (fun r => (r.code, r.opcode)) =
      some (.memOutOfBounds, some 0xF055) := by decide

/-- The words of an Encoding line: here every pattern with free bits, at its all-ones operands. -/
theorem test_witness_RowDecodes :
    (0x1FFF : Word) &&& 0xF000 = 0x1000 ∧ (0xBFFF : Word) &&& 0xF000 = 0xB000 ∧ (0x3FFF : Word) &&& 0xF000 = 0x3000 ∧
    (0x4FFF : Word) &&& 0xF000 = 0x4000 ∧ (0x5FF0 : Word) &&& 0xF00F = 0x5000 ∧ (0x9FF0 : Word) &&& 0xF00F = 0x9000 ∧
    (0x6FFF : Word) &&& 0xF000 = 0x6000 ∧ (0x7FFF : Word) &&& 0xF000 = 0x7000 ∧ (0x8FF0 : Word) &&& 0xF00F = 0x8000 ∧
    (0x8FF1 : Word) &&& 0xF00F = 0x8001 ∧ (0x8FF2 : Word) &&& 0xF00F = 0x8002 ∧ (0x8FF3 : Word) &&& 0xF00F = 0x8003 ∧
    (0xAFFF : Word) &&& 0xF000 = 0xA000 ∧ (0xFF33 : Word) &&& 0xF0FF = 0xF033 ∧ (0xFF55 : Word) &&& 0xF0FF = 0xF055 ∧
    (0xFF65 : Word) &&& 0xF0FF = 0xF065 ∧ (0xFF07 : Word) &&& 0xF0FF = 0xF007 ∧ (0xFF15 : Word) &&& 0xF0FF = 0xF015 ∧
    (0xFF18 : Word) &&& 0xF0FF = 0xF018 ∧ (0x00E0 : Word) &&& 0xFFFF = 0x00E0 := by decide

/-- Both jumps to a target no fetch can reach, from RUN. -/
theorem test_witness_JumpsSetThePc :
    (∃ t, exec (.jp 0xFFF) start = .next t ∧ t.status = .run ∧ 0xFFF ≤ t.pc.toNat) ∧
    ∃ t, exec (.jpV0 0xFFF) (start.setReg 0 0xFF) = .next t ∧ t.status = .run ∧ 0xFFF ≤ t.pc.toNat :=
  ⟨⟨_, rfl, rfl, by decide⟩, _, rfl, rfl, by decide⟩

theorem test_witness_ClearScreenClearsEveryPixel_nop :
    fieldG 0x01E0 = 0 ∧ (0x01E0 : Word) ≠ 0x00E0 ∧ (0x01E0 : Word) ≠ 0x00EE := by decide

theorem test_witness_SkipsCompareTwoRegisters_nop : fieldG 0x512F = 0x5 ∧ fieldG 0x9121 = 0x9 ∧ fieldN 0x512F ≠ 0 ∧
    fieldN 0x9121 ≠ 0 := by decide

theorem test_witness_CallPushesTheReturnAddress : start.sp.val < 16 ∧ { start with sp := 15 : State }.sp.val < 16 := by
  decide

theorem test_witness_ReturnPopsIntoThePc :
    0 < { start with sp := 1 : State }.sp.val ∧ 0 < { start with sp := 16 : State }.sp.val := by decide

theorem test_witness_StackFaultsWriteNothing : { start with sp := 16 : State }.sp.val = 16 ∧ start.sp.val = 0 := by decide

theorem test_witness_CallThenReturnGoesOnAfterTheCall :
    { start with sp := 15 : State }.sp.val < 16 ∧
    ∃ t u : State, exec (.call 0x300) { start with sp := 15 } = .next t ∧ u.sp = t.sp ∧ u.stack = t.stack :=
  ⟨by decide, _, _, rfl, rfl, rfl⟩

theorem test_witness_FlaggedOperationsOffVf : (14 : RegIdx) ≠ 15 ∧ (0 : RegIdx) ≠ 15 := by decide

theorem test_witness_VfOperands :
    start.params.vfAliasMode = .sequential ∧ snapshot.params.vfAliasMode = .snapshot ∧ (14 : RegIdx) ≠ 15 := by decide

theorem test_witness_LogicActsOnEachBit_RandomByteIsMasked :
    7 < 8 ∧ (0x0F : Byte).getLsbD 7 = false ∧ (0x0F : Byte).getLsbD 4 = false := by decide

theorem test_witness_StoreDecimalDigits :
    (start.MemWf ∧ { start with i := 0xFFD : State }.effAddr 2 < 4096) ∧ 4096 ≤ { start with i := 0xFFE : State }.effAddr 2 :=
  ⟨⟨start_memWf, by decide⟩, by decide⟩

/-- Both clauses of FX55 and FX65, at the last block in memory and the first one out of it. -/
theorem test_witness_RegisterBlocks :
    (start.MemWf ∧ { start with i := 0xFF0 : State }.effAddr (15 : RegIdx).val < 4096) ∧
    4096 ≤ { start with i := 0xFF1 : State }.effAddr (15 : RegIdx).val ∧
    { start with i := 0xFFF : State }.effAddr (0 : RegIdx).val < 4096 ∧ (0 : RegIdx) ≤ 15 :=
  ⟨⟨start_memWf, by decide⟩, by decide, by decide, by decide⟩

theorem test_witness_StoredRegistersLoadBack : ∃ t u : State,
    { start with i := 0xFF0 : State }.MemWf ∧ { start with i := 0xFF0 : State }.effAddr (15 : RegIdx).val < 4096 ∧
    exec (.ldMemVx 15) { start with i := 0xFF0 } = .next t ∧ u.i = t.i ∧ u.mem = t.mem ∧ u.params = t.params :=
  ⟨_, _, start_memWf, by decide, exec_ldMemVx_ok (by decide), rfl, rfl, rfl⟩

/-- FX55 stores 6A 2B at 0x300, and a state with the pc there. -/
def storer : State := { (start.setReg 0 0x6A).setReg 1 0x2B with i := 0x300 }

theorem test_witness_StoredWordIsExecuted : ∃ t u : State, ∃ w : Word,
    storer.MemWf ∧ 1 ≤ (1 : RegIdx).val ∧ storer.effAddr (1 : RegIdx).val < 4096 ∧ exec (.ldMemVx 1) storer = .next t ∧
    u.mem = t.mem ∧ u.params = t.params ∧ u.status = .run ∧ u.pc = storer.i ∧
    w.toNat = 256 * (storer.reg 0).toNat + (storer.reg 1).toNat :=
  ⟨_, { storer.advance.writeBytes (storer.effAddr 0) (storer.regBlock 1) with pc := 0x300 }, 0x6A2B, start_memWf, by decide,
    by decide, exec_ldMemVx_ok (by decide), rfl, rfl, rfl, rfl, by decide⟩

theorem test_witness_CanonicalMemoriesAreEqualWhenReadsAre :
    Memory.wf defaultFont [(0x000, 0x00), (0xFFF, 0x01)] ∧
    (∀ a < 4096, Memory.read defaultFont [(0x000, 0x00), (0xFFF, 0x01)] a =
      Memory.read defaultFont [(0x000, 0x00), (0xFFF, 0x01)] a) :=
  ⟨by decide, fun _ _ => rfl⟩

/-- The three ways DXYN can run or fault, at their bounds: no bytes with I at its top, 15 bytes up to 0xFFF, and a byte at
0x1000. -/
theorem test_witness_Draw :
    (0 : Nibble).toNat = 0 ∧ { start with i := 0xFF1 : State }.effAddr (15 : Nibble).toNat ≤ 4096 ∧
    (0 < (15 : Nibble).toNat ∧ 4096 < { start with i := 0xFF2 : State }.effAddr (15 : Nibble).toNat) := by decide

/-- The clauses of DrawFlipsTheSpritePixels: a pixel under the sprite, across both edges, and one it does not reach. -/
theorem test_witness_DrawFlipsTheSpritePixels :
    (14 < (15 : Nibble).toNat ∧ 7 < 8 ∧ (6 : Fin 64).val = ((0xFF : Byte).toNat + 7) % 64 ∧
      (13 : Fin 32).val = ((0xFF : Byte).toNat + 14) % 32) ∧
    ∀ col < 8, (8 : Fin 64).val ≠ ((0x00 : Byte).toNat + col) % 64 := by decide

theorem test_witness_DrawingTwiceRestoresTheScreen :
    (0 : RegIdx) ≠ 15 ∧ (1 : RegIdx) ≠ 15 ∧ start.effAddr (5 : Nibble).toNat ≤ 4096 ∧ ∃ t, exec (.drw 0 1 5) start = .next t :=
  ⟨by decide, by decide, by decide, _, rfl⟩

/-- A step that changes the framebuffer (00E0 with a pixel set), and a reset that does. -/
theorem test_witness_OnlyClearDrawAndResetWritePixels :
    (∃ t, transact .step { start with fb := start.fb.setPixel 0 0 true, pc := 0x200, mem := [(0x201, 0xE0)] } = .next t ∧
      t.fb ≠ start.fb.setPixel 0 0 true) ∧
    ∃ t, transact .reset { start with fb := start.fb.setPixel 0 0 true } = .next t ∧ t.fb ≠ start.fb.setPixel 0 0 true := by
  have differ : Framebuffer.blank ≠ start.fb.setPixel 0 0 true := by
    intro h
    have h' := congrArg (fun f : Framebuffer => f.pixel 0 0) h
    simp only [Framebuffer.pixel_blank, Framebuffer.pixel_setPixel] at h'
    exact absurd h' (by decide)
  exact ⟨⟨_, rfl, differ⟩, _, rfl, differ⟩

theorem test_witness_KeySkipsReadTheKeyLevel :
    ((start.setReg 2 15).reg 2).toNat = (15 : Key).val ∧ start.keyPressed 15 = false ∧
    { start with keys := start.keys.set 15 true : State }.keyPressed 15 = true := by decide

theorem test_witness_KeyNumberOutOfRangeFaults :
    15 < ((start.setReg 2 16).reg 2).toNat ∧ 15 < ((start.setReg 2 0xFF).reg 2).toNat := by decide

theorem test_witness_TickDecrementsTheTimers : start.status = .run ∧ faulted.status ≠ .run := by decide

/-- A step that enters the wait, a key-down and a reset that end it. -/
theorem test_witness_OnlyAKeyDownOrResetEndsAWait :
    (∃ t, transact .step (start.withFetchWord 16 0xF10A) = .next t ∧ t.status = .waitKey 1) ∧
    (∃ t, transact (.keyDown 7) { start with status := .waitKey 1 } = .next t ∧ t.status ≠ .waitKey 1) ∧
    (∃ t, transact .reset { start with status := .waitKey 1 } = .next t ∧ t.status ≠ .waitKey 1) :=
  ⟨⟨_, rfl, rfl⟩, ⟨_, rfl, by decide⟩, ⟨_, rfl, by decide⟩⟩

theorem test_witness_OnlyResetLeavesAFault :
    (∃ r, faulted.status = .fault r) ∧ Transaction.step ≠ .reset ∧ Transaction.keyDown 3 ≠ .reset := by
  exact ⟨⟨_, rfl⟩, by decide, by decide⟩

/-- The largest image LOAD takes, and the first it refuses. -/
theorem test_witness_LoadPlacesTheImage :
    start.MemWf ∧ (∀ r, start.status ≠ .fault r) ∧ (List.replicate 3584 (0 : Byte)).length ≤ 3584 ∧
    3584 < (List.replicate 3585 (0 : Byte)).length := by
  refine ⟨start_memWf, fun r h => (by cases h), ?_, ?_⟩ <;> rw [List.length_replicate]
  decide

theorem test_witness_InstructionsWriteOnlyWhatTheirRulesName :
    start.MemWf ∧ (∃ t, exec (.ldBVx 5) { start with i := 0xFFD } = .next t) ∧ ∃ t, exec (.ldBVx 5) start = .next t :=
  ⟨start_memWf, ⟨_, rfl⟩, _, rfl⟩

theorem test_witness_NoInstructionReadsTheSoundTimer : ∃ t, exec (.ldVxDt 3) start = .next t := ⟨_, rfl⟩

/-- With SP = 1, slot 0 is shared and slot 1 is free. -/
theorem test_witness_FreeStackSlotsAreNotObserved :
    SameButFreeSlots { start with sp := 1 } { start with sp := 1, stack := start.stack.set 1 0x202 } ∧
    ∃ t, step { start with sp := 1 } = .next t := by
  refine ⟨⟨rfl, fun k hk => ?_⟩, _, rfl⟩
  have hk : k.val < 1 := hk
  have : k = 0 := Fin.ext (by show k.val = 0; omega)
  subst this
  rfl

/-- The invariant holds in the start state, which steps, and in a FAULT state a step from it leaves. -/
theorem test_witness_Invariant : start.Inv ∧ ∃ t, step start = .next t :=
  ⟨⟨start_memWf, ⟨by decide, fun k => by simp [start, State.reset]⟩, trivial⟩, _, rfl⟩

theorem test_witness_Invariant_fault : { faulted with mem := [(0x201, 0xEE)] : State }.Inv ∧
    ∃ t, transact .reset { faulted with mem := [(0x201, 0xEE)] } = .next t :=
  ⟨⟨show Memory.wf defaultFont [(0x201, 0xEE)] by decide, ⟨by decide, fun k => by simp [faulted, start, State.reset]⟩, ⟨rfl, rfl, rfl, rfl, rfl⟩⟩, _, rfl⟩

end Sys2Proof.Tests
end

section
/-! Obligation O2: the fields of the instruction word as bit ranges (30_encoding.md R100). -/

namespace Sys2Proof

section

/-- Bit `k` of a bit range is the bit `start + k` of the word it is cut from. -/
theorem getLsbD_extractLsb'_of_lt {start len k : Nat} (op : Word) (hk : k < len) :
    (op.extractLsb' start len).getLsbD k = op.getLsbD (start + k) := by
  rw [BitVec.getLsbD_extractLsb', decide_eq_true hk, Bool.true_and]

variable {k : Nat} (op : Word)

theorem fieldG_getLsbD (hk : k < 4) : (fieldG op).getLsbD k = op.getLsbD (12 + k) :=
  getLsbD_extractLsb'_of_lt op hk

theorem fieldX_testBit (hk : k < 4) : (fieldX op).val.testBit k = op.getLsbD (8 + k) :=
  getLsbD_extractLsb'_of_lt op hk

theorem fieldY_testBit (hk : k < 4) : (fieldY op).val.testBit k = op.getLsbD (4 + k) :=
  getLsbD_extractLsb'_of_lt op hk

theorem fieldN_getLsbD (hk : k < 4) : (fieldN op).getLsbD k = op.getLsbD k := by
  rw [fieldN, getLsbD_extractLsb'_of_lt op hk, Nat.zero_add]

theorem fieldNN_getLsbD (hk : k < 8) : (fieldNN op).getLsbD k = op.getLsbD k := by
  rw [fieldNN, getLsbD_extractLsb'_of_lt op hk, Nat.zero_add]

theorem fieldNNN_getLsbD (hk : k < 12) : (fieldNNN op).getLsbD k = op.getLsbD k := by
  rw [fieldNNN, getLsbD_extractLsb'_of_lt op hk, Nat.zero_add]

end

/-- Settles O2: each field is one bit range of the word, so its bits are the word's bits from the range's start on. -/
theorem fieldsAreBitRanges : Obligations.FieldsAreBitRanges := fun op =>
  ⟨fun _ => fieldG_getLsbD op, fun _ => fieldX_testBit op, fun _ => fieldY_testBit op,
    fun _ => fieldN_getLsbD op, fun _ => fieldNN_getLsbD op, fun _ => fieldNNN_getLsbD op⟩

end Sys2Proof
end

section
/-! Obligations O17 and O18: the skips on a comparison (41_control_flow.md R164-R167). -/

namespace Sys2Proof

/-! Decoding the groups of the skips, from the fields of the word. -/

theorem fieldN_toNat_eq_zero {w : Word} : (fieldN w).toNat = 0 ↔ fieldN w = 0 := BitVec.toNat_inj (y := 0#4)

section
variable {w : Word}

theorem decodeWord_group3 (h : fieldG w = 0x3) : decodeWord w = .seVxNn (fieldX w) (fieldNN w) := by
  rw [decodeWord, h]; rfl

theorem decodeWord_group4 (h : fieldG w = 0x4) : decodeWord w = .sneVxNn (fieldX w) (fieldNN w) := by
  rw [decodeWord, h]; rfl

theorem decodeWord_group5 (h : fieldG w = 0x5) :
    decodeWord w = if fieldN w = 0 then .seVxVy (fieldX w) (fieldY w) else .nop w := by
  simp only [← fieldN_toNat_eq_zero]
  rw [decodeWord, h]; rfl

theorem decodeWord_group9 (h : fieldG w = 0x9) :
    decodeWord w = if fieldN w = 0 then .sneVxVy (fieldX w) (fieldY w) else .nop w := by
  simp only [← fieldN_toNat_eq_zero]
  rw [decodeWord, h]; rfl

end

end Sys2Proof

namespace Sys2Proof.Machine

/-! The rows of the opcode map, decoded from the fields their masks fix. -/

/-- A row whose mask is 0xF000 decodes as it does for every word of its group. -/
theorem rowDecodes_F000 (g : Nibble) {i : Word → Instr} (h : ∀ w, fieldG w = g → decodeWord w = i w) :
    RowDecodes 0xF000 (formXYN g 0 0 0) i :=
  fun w hw => h w (mask_F000.mp hw)

/-- A row whose mask is 0xF00F decodes as it does for every word of its group and low nibble. -/
theorem rowDecodes_F00F (g n : Nibble) {i : Word → Instr} (h : ∀ w, fieldG w = g → fieldN w = n → decodeWord w = i w) :
    RowDecodes 0xF00F (formXYN g 0 0 n) i :=
  fun w hw => h w (mask_F00F.mp hw).1 (mask_F00F.mp hw).2

/-! A transition of the pc alone, and the skip as one. -/

/-- Setting the pc is outside every register, part and parameter. -/
theorem Frame.setPc (s : State) (p : Word) : Frame [] [] s { s with pc := p } where
  regs_same _ _ := rfl
  parts_same p _ := by cases p <;> rfl
  params_same := rfl

/-- The conditional skip after the advance, as one update of the pc (R160). -/
theorem State.skipIf_advance (s : State) (c : Bool) :
    s.advance.skipIf c = { s with pc := if c then s.pc + 4 else s.pc + 2 } := by
  cases c with
  | false => rfl
  | true =>
    have twice : s.pc + 2 + 2 = s.pc + 4 := BitVec.add_assoc s.pc 2 2
    exact congrArg (fun p => { s with pc := p }) twice

/-- An instruction whose meaning is a conditional skip completes as a skip on what its condition decides. -/
theorem CompletesSkip.of_skipIf {i : Instr} {s : State} {b : Bool} {c : Prop}
    (run : exec i s = .next (s.advance.skipIf b)) (decides : b = true ↔ c) : CompletesSkip i s c := by
  rw [State.skipIf_advance] at run
  exact ⟨_, run, fun hc => if_pos (decides.mpr hc), fun hc => if_neg (mt decides.mp hc), .setPc s _, fun _ => rfl⟩

/-! The conditions: equality of two bytes as a test, and as numbers. -/

theorem beq_iff_toNat_eq (a b : Byte) : (a == b) = true ↔ a.toNat = b.toNat := beq_iff_eq.trans BitVec.toNat_inj.symm

theorem bne_iff_toNat_ne (a b : Byte) : (a != b) = true ↔ a.toNat ≠ b.toNat := bne_iff_ne.trans BitVec.toNat_ne_iff_ne.symm

/-- Settles O17: groups 3 and 4 are one row each, and both meanings are the conditional skip on the comparison. -/
theorem skipsCompareARegisterWithAByte : Obligations.SkipsCompareARegisterWithAByte :=
  ⟨rowDecodes_F000 0x3 fun _ => decodeWord_group3, rowDecodes_F000 0x4 fun _ => decodeWord_group4, fun x nn s =>
    ⟨.of_skipIf rfl (beq_iff_toNat_eq (s.reg x) nn), .of_skipIf rfl (bne_iff_toNat_ne (s.reg x) nn)⟩⟩

/-- Settles O18: groups 5 and 9 are a row where the low nibble is 0 and NOPs elsewhere, and both meanings are the
conditional skip on the comparison. -/
theorem skipsCompareTwoRegisters : Obligations.SkipsCompareTwoRegisters := by
  refine ⟨rowDecodes_F00F 0x5 0 fun w hg hn => ?_, rowDecodes_F00F 0x9 0 fun w hg hn => ?_, fun w hg hn => ?_,
    fun x y s => ⟨?_, ?_⟩⟩
  · rw [decodeWord_group5 hg, if_pos hn]
  · rw [decodeWord_group9 hg, if_pos hn]
  · rcases hg with hg | hg
    · rw [decodeWord_group5 hg, if_neg hn]
    · rw [decodeWord_group9 hg, if_neg hn]
  · exact .of_skipIf rfl (beq_iff_toNat_eq (s.reg x) (s.reg y))
  · exact .of_skipIf rfl (bne_iff_toNat_ne (s.reg x) (s.reg y))

end Sys2Proof.Machine
end

section
/-! Obligations O20 and O21: the ALU instructions without a flag (42_alu.md R210-R215). -/

namespace Sys2Proof

/-! Decoding groups 6, 7 and 8, from the fields of the word. -/

section
variable {w : Word}

theorem decodeWord_group6 (h : fieldG w = 0x6) : decodeWord w = .ldVxNn (fieldX w) (fieldNN w) := by
  rw [decodeWord, h]; rfl

theorem decodeWord_group7 (h : fieldG w = 0x7) : decodeWord w = .addVxNn (fieldX w) (fieldNN w) := by
  rw [decodeWord, h]; rfl

theorem decodeWord_group8 (h : fieldG w = 0x8) : decodeWord w = decodeGroup8 w := by
  rw [decodeWord, h]; rfl

theorem decodeGroup8_ldVxVy (h : fieldN w = 0x0) : decodeGroup8 w = .ldVxVy (fieldX w) (fieldY w) := by
  rw [decodeGroup8, h]; rfl

theorem decodeGroup8_or (h : fieldN w = 0x1) : decodeGroup8 w = .or (fieldX w) (fieldY w) := by
  rw [decodeGroup8, h]; rfl

theorem decodeGroup8_and (h : fieldN w = 0x2) : decodeGroup8 w = .and (fieldX w) (fieldY w) := by
  rw [decodeGroup8, h]; rfl

theorem decodeGroup8_xor (h : fieldN w = 0x3) : decodeGroup8 w = .xor (fieldX w) (fieldY w) := by
  rw [decodeGroup8, h]; rfl

end

end Sys2Proof

namespace Sys2Proof.Machine

/-- A row of group 8 decodes as the group does for every word of its low nibble. -/
theorem rowDecodes_group8 (n : Nibble) {i : Word → Instr} (h : ∀ w, fieldN w = n → decodeGroup8 w = i w) :
    RowDecodes 0xF00F (formXYN 0x8 0 0 n) i :=
  rowDecodes_F00F 0x8 n fun w hg hn => (decodeWord_group8 hg).trans (h w hn)

/-! A transition that advances the pc and writes a register it is allowed to write. -/

/-- The advance is outside every register, part and parameter. -/
theorem Frame.advance (regs : List RegIdx) (parts : List Part) (s : State) : Frame regs parts s s.advance where
  regs_same _ _ := rfl
  parts_same p _ := by cases p <;> rfl
  params_same := rfl

/-- Writing a listed register keeps a frame. -/
theorem Frame.setReg {regs : List RegIdx} {parts : List Part} {s t : State} {x : RegIdx} (h : Frame regs parts s t)
    (hx : x ∈ regs) (b : Byte) : Frame regs parts s (t.setReg x b) where
  regs_same k hk := by
    have hkx : k ≠ x := fun e => hk (e ▸ hx)
    rw [State.reg_setReg, if_neg hkx, h.regs_same k hk]
  parts_same p hp := by
    have same := h.parts_same p hp
    cases p <;> exact same
  params_same := h.params_same

/-! The ALU's write-back where the operation makes no flag (R201). -/

/-- Without a flag the write-back is one write of V[x], and VF is no exception. -/
theorem State.aluResultFirst_of_no_flag {op : AluOp} {a b : Byte} (noFlag : aluFlag op a b = none) (s : State)
    (x : RegIdx) (rb : Byte) : s.aluResultFirst op x a b rb = s.setReg x (aluResult op a b rb) := by
  rw [State.aluResultFirst, noFlag]; rfl

/-- An instruction whose meaning is the write-back of an operation without a flag completes, writing V[x] alone; what
holds of every state with the result in V[x] holds after it. -/
theorem Completes.of_aluResultFirst {i : Instr} {s : State} {op : AluOp} {x : RegIdx} {a b rb : Byte} {P : State → Prop}
    (run : exec i s = .next (s.advance.aluResultFirst op x a b rb)) (noFlag : aluFlag op a b = none)
    (result : ∀ t : State, t.reg x = aluResult op a b rb → P t) : Completes i s [x] [] P := by
  rw [State.aluResultFirst_of_no_flag noFlag] at run
  have written : (s.advance.setReg x (aluResult op a b rb)).reg x = aluResult op a b rb := by
    rw [State.reg_setReg, if_pos rfl]
  exact ⟨_, run, rfl, (Frame.advance [x] [] s).setReg (List.mem_singleton_self x) _, fun _ => rfl, result _ written⟩

/-- Settles O20: three rows of the map, and each meaning is the write-back of an operation without a flag: the second
operand itself, or the 8-bit sum. -/
theorem loadsAndImmediateAdd : Obligations.LoadsAndImmediateAdd := by
  refine ⟨rowDecodes_F000 0x6 fun _ => decodeWord_group6, rowDecodes_F000 0x7 fun _ => decodeWord_group7,
    rowDecodes_group8 0x0 fun _ => decodeGroup8_ldVxVy, fun x y nn s => ⟨?ldNn, ?addNn, ?ldVy⟩⟩
  case ldNn => exact .of_aluResultFirst rfl rfl fun t ht => ht
  case addNn =>
    refine .of_aluResultFirst rfl rfl fun t ht => ?_
    rw [ht]
    exact BitVec.toNat_add (s.reg x) nn
  case ldVy => exact .of_aluResultFirst rfl rfl fun t ht => ht

/-- Settles O21: three rows of group 8, and each meaning is the write-back of a bitwise operation, which makes no flag. -/
theorem logicActsOnEachBit : Obligations.LogicActsOnEachBit := by
  refine ⟨rowDecodes_group8 0x1 fun _ => decodeGroup8_or, rowDecodes_group8 0x2 fun _ => decodeGroup8_and,
    rowDecodes_group8 0x3 fun _ => decodeGroup8_xor, fun x y s => ⟨?or, ?and, ?xor⟩⟩
  case or => exact .of_aluResultFirst rfl rfl fun t ht k _ => ht ▸ BitVec.getLsbD_or
  case and => exact .of_aluResultFirst rfl rfl fun t ht k _ => ht ▸ BitVec.getLsbD_and
  case xor => exact .of_aluResultFirst rfl rfl fun t ht k _ => ht ▸ BitVec.getLsbD_xor

end Sys2Proof.Machine
end

section
/-! Obligations O26, O28, O29 and O30: loading the index register, and the blocks of bytes that FX33 and FX55 store and
FX65 loads (43_index_memory.md R250, R253-R255). -/

namespace Sys2Proof

/-! Decoding groups A and F, from the fields of the word. -/

section
variable {w : Word}

theorem decodeWord_groupA (h : fieldG w = 0xA) : decodeWord w = .ldI (fieldNNN w) := by
  rw [decodeWord, h]; rfl

theorem decodeWord_groupF (h : fieldG w = 0xF) : decodeWord w = decodeGroupF w := by
  rw [decodeWord, h]; rfl

theorem decodeGroupF_ldBVx (h : fieldNN w = 0x33) : decodeGroupF w = .ldBVx (fieldX w) := by
  rw [decodeGroupF, h]; rfl

theorem decodeGroupF_ldMemVx (h : fieldNN w = 0x55) : decodeGroupF w = .ldMemVx (fieldX w) := by
  rw [decodeGroupF, h]; rfl

theorem decodeGroupF_ldVxMem (h : fieldNN w = 0x65) : decodeGroupF w = .ldVxMem (fieldX w) := by
  rw [decodeGroupF, h]; rfl

end

end Sys2Proof

namespace Sys2Proof.Machine

/-- A row whose mask is 0xF0FF decodes as it does for every word of its group and low byte. -/
theorem rowDecodes_F0FF (g : Nibble) (nn : Byte) {i : Word → Instr}
    (h : ∀ w, fieldG w = g → fieldNN w = nn → decodeWord w = i w) : RowDecodes 0xF0FF (formXNN g 0 nn) i :=
  fun w hw => h w (mask_F0FF.mp hw).1 (mask_F0FF.mp hw).2

/-- A row of group F decodes as the group does for every word of its low byte. -/
theorem rowDecodes_groupF (nn : Byte) {i : Word → Instr} (h : ∀ w, fieldNN w = nn → decodeGroupF w = i w) :
    RowDecodes 0xF0FF (formXNN 0xF 0 nn) i :=
  rowDecodes_F0FF 0xF nn fun w hg hn => (decodeWord_groupF hg).trans (h w hn)

/-! What each write keeps of a frame: the index register, a block of memory, a block of registers. -/

section
variable {regs : List RegIdx} {parts : List Part} {s t : State}

/-- Writing I keeps a frame that lists it. -/
theorem Frame.setIndex (h : Frame regs parts s t) (listed : .index ∈ parts) (w : Word) :
    Frame regs parts s { t with i := w } where
  regs_same := h.regs_same
  parts_same p hp := by
    have same := h.parts_same p hp
    cases p with
    | index => exact absurd listed hp
    | _ => exact same
  params_same := h.params_same

/-- Writing memory keeps every frame. -/
theorem Frame.writeBytes (h : Frame regs parts s t) (a : Nat) (bs : List Byte) :
    Frame regs parts s (t.writeBytes a bs) := by
  rw [State.writeBytes_eq]
  refine ⟨h.regs_same, fun p hp => ?_, h.params_same⟩
  have same := h.parts_same p hp
  cases p <;> exact same

/-- Writing successive registers keeps a frame that lists them all. -/
theorem Frame.setRegs (h : Frame regs parts s t) {k : Nat} {bs : List Byte}
    (listed : ∀ n, k ≤ n → n < k + bs.length → Fin.ofNat 16 n ∈ regs) : Frame regs parts s (t.setRegs k bs) := by
  induction bs generalizing t k with
  | nil => exact h
  | cons b bs ih =>
    rw [List.length_cons] at listed
    exact ih (h.setReg (listed k (by omega) (by omega)) b) fun n hk hn => listed n (by omega) (by omega)

end

/-! The outcomes shared by the transfers: the block is stored, or the access is out of range. -/

/-- An instruction whose meaning writes a block of bytes at I, all inside memory, advances the pc and changes the bytes of
the block alone, which then read as written. -/
theorem exec_storesBlock {i : Instr} {s : State} {bs : List Byte} (memWf : s.MemWf)
    (run : exec i s = .next (s.advance.writeBytes (s.effAddr 0) bs)) (inMemory : s.effAddr bs.length ≤ Config.memSize) :
    ∃ t, exec i s = .next t ∧ t.pc = s.pc + 2 ∧ Frame [] [] s t ∧ MemSameOutside (s.effAddr 0) bs.length s t ∧
      ∀ k (hk : k < bs.length), t.readByte (s.effAddr k) = bs[k] := by
  have read := State.readByte_writeBytes (s := s.advance) (a := s.effAddr 0) memWf inMemory
  refine ⟨_, run, ?pc, (Frame.advance [] [] s).writeBytes _ _, fun b outside => ?kept, fun k hk => ?stored⟩
  case pc => rw [State.writeBytes_eq]; rfl
  case kept => rw [read, dif_neg (by omega)]; rfl
  case stored =>
    have offset : s.effAddr k = s.effAddr 0 + k := rfl
    simp only [read, offset, Nat.le_add_right, Nat.add_lt_add_left hk, and_self, dite_true, Nat.add_sub_cancel_left]

/-- Aborting on an access at I that runs out of memory is the fault MEM_OUT_OF_BOUNDS of that access (R256). -/
theorem MemFaults.of_takeFault {i : Instr} {s : State} {op : Option Word}
    (run : exec i s = .next (s.takeFault op
      { code := .memOutOfBounds, info := some (BitVec.ofNat 16 (max (s.effAddr 0) Config.memSize)) })) :
    MemFaults i s := by
  refine ⟨_, _, _, run, rfl, rfl, rfl, ?info, fun _ => rfl, rfl, fun _ => rfl⟩
  case info =>
    have first : (BitVec.ofNat 16 (max (s.effAddr 0) Config.memSize)).toNat = max s.i.toNat 0x1000 := outOfRange_toNat s.i
    rw [first]
    split <;> omega

/-! The operands: the 12-bit immediate, and the registers of a block. -/

theorem zext16_toNat (nnn : Addr) : (zext16 nnn).toNat = nnn.toNat := BitVec.toNat_setWidth_of_le (by decide)

theorem mem_regsUpTo {x k : RegIdx} : k ∈ regsUpTo x ↔ k ≤ x := by simp [regsUpTo]

/-- Settles O26: group A is one row, and its meaning writes I alone. -/
theorem loadIndexImmediate : Obligations.LoadIndexImmediate :=
  ⟨rowDecodes_F000 0xA fun _ => decodeWord_groupA, fun nnn s =>
    ⟨_, rfl, rfl, (Frame.advance [] [.index] s).setIndex (List.mem_singleton_self _) _, fun _ => rfl, zext16_toNat nnn⟩⟩

/-- Settles O28: one row of group F, which stores the block of the three decimal digits. Each digit is below 256, so the
byte that holds it is the digit itself. -/
theorem storeDecimalDigits : Obligations.StoreDecimalDigits := by
  refine ⟨rowDecodes_groupF 0x33 fun _ => decodeGroupF_ldBVx, fun x s memWf =>
    ⟨fun inMemory => ?stores, fun outside => .of_takeFault (exec_ldBVx_error outside)⟩⟩
  case stores =>
    have digitFits (n : Nat) (h : n < 2 ^ 8) : (BitVec.ofNat 8 n).toNat = n := (BitVec.toNat_ofNat n 8).trans (Nat.mod_eq_of_lt h)
    have byteBound := (s.reg x).isLt
    obtain ⟨t, run, pc, frame, kept, stored⟩ := exec_storesBlock memWf (exec_ldBVx_ok inMemory) inMemory
    refine ⟨t, run, pc, frame, kept, ?_, ?_, ?_⟩
    · rw [stored 0 (by decide : 0 < 3)]; exact digitFits _ (by omega)
    · rw [stored 1 (by decide : 1 < 3)]; exact digitFits _ (by omega)
    · rw [stored 2 (by decide : 2 < 3)]; exact digitFits _ (by omega)

/-- Settles O29: one row of group F, which stores the register block V0 to VX. -/
theorem storeRegisterBlock : Obligations.StoreRegisterBlock := by
  refine ⟨rowDecodes_groupF 0x55 fun _ => decodeGroupF_ldMemVx, fun x s memWf =>
    ⟨fun inMemory => ?stores, fun outside => .of_takeFault (exec_ldMemVx_error outside)⟩⟩
  case stores =>
    have len := s.regBlock_length x
    obtain ⟨t, run, pc, frame, kept, stored⟩ :=
      exec_storesBlock memWf (exec_ldMemVx_ok inMemory) (by rw [len]; exact inMemory)
    rw [len] at kept
    refine ⟨t, run, pc, frame, kept, fun k hk => ?_⟩
    have inBlock : k.val < (s.regBlock x).length := by rw [len]; exact Nat.lt_succ_of_le hk
    rw [stored k.val inBlock, State.regBlock_getElem]

/-- Settles O30: one row of group F, which writes the bytes at I to the registers V0 to VX. -/
theorem loadRegisterBlock : Obligations.LoadRegisterBlock := by
  refine ⟨rowDecodes_groupF 0x65 fun _ => decodeGroupF_ldVxMem, fun x s =>
    ⟨fun inMemory => ?loads, fun outside => .of_takeFault (exec_ldVxMem_error outside)⟩⟩
  case loads =>
    refine ⟨_, exec_ldVxMem_ok inMemory, ?pc, (Frame.advance _ [] s).setRegs fun n _ hn => ?listed, fun a => ?memory,
      fun k hk => ?loaded⟩
    case pc => rw [State.setRegs_eq]; rfl
    case listed =>
      rw [List.length_map, List.length_range, Nat.zero_add] at hn
      exact mem_regsUpTo.mpr ((Nat.mod_le n 16).trans (Nat.le_of_lt_succ hn))
    case memory => rw [State.setRegs_eq]; rfl
    case loaded =>
      have inBlock : k.val < x.val + 1 := Nat.lt_succ_of_le hk
      rw [State.reg_setRegs _ _ _ (by simp), dif_pos (by simp [inBlock]), List.getElem_map, List.getElem_range]
      rfl

end Sys2Proof.Machine
end

section
/-! The frame of every instruction: what exec leaves unchanged, from what each update of the state keeps (40_pipeline.md
R140). -/

namespace Sys2Proof.Machine

section
variable {regs : List RegIdx} {parts : List Part} {s t : State} {op : AluOp} {x y : RegIdx} {a b rb : Byte}

/-- Writing a flag keeps a frame that lists VF where there is a flag to write. -/
theorem Frame.writeFlag (h : Frame regs parts s t) {f : Option Bool} (listed : f = none ∨ vf ∈ regs) :
    Frame regs parts s (t.writeFlag f) := by
  cases f with
  | none => exact h
  | some f => exact h.setReg (listed.resolve_left nofun) _

/-- The result-first write-back keeps a frame that lists V[x], and VF where the operation makes a flag. -/
theorem Frame.aluResultFirst (h : Frame regs parts s t) (hx : x ∈ regs) (flag : aluFlag op a b = none ∨ vf ∈ regs) :
    Frame regs parts s (t.aluResultFirst op x a b rb) :=
  (h.setReg hx _).writeFlag flag

/-- The flag-first write-back keeps a frame that lists V[x] and VF. -/
theorem Frame.aluFlagFirst (h : Frame regs parts s t) (hx : x ∈ regs) (hvf : vf ∈ regs) :
    Frame regs parts s (t.aluFlagFirst op x y) :=
  (h.writeFlag (.inr hvf)).setReg hx _

/-- Registers and parameters kept, and every part but those listed. -/
theorem Frame.of_parts (v : t.v = s.v) (params : t.params = s.params) (same : ∀ p, p ∉ parts → p.Same s t) :
    Frame regs parts s t where
  regs_same k _ := by rw [State.reg, v, State.reg]
  parts_same := same
  params_same := params

/-- A conditional skip after the advance is outside every register, part and parameter. -/
theorem Frame.skipIf (regs : List RegIdx) (parts : List Part) (s : State) (c : Bool) :
    Frame regs parts s (s.advance.skipIf c) := by
  rw [State.skipIf_advance]
  exact .of_parts rfl rfl fun p _ => by cases p <;> rfl

/-- A fault taken keeps a frame that lists the status. -/
theorem Frame.takeFault (listed : .status ∈ parts) (opcode : Option Word) (e : Raise) :
    Frame regs parts s (s.takeFault opcode e) :=
  .of_parts rfl rfl fun p hp => by
    cases p with
    | status => exact absurd listed hp
    | _ => rfl

/-- Committing or aborting keeps a frame that lists the status, if what would be committed keeps it. -/
theorem Frame.complete {word : Word} {r : Except Raise State} (h : complete word s r = .next t)
    (listed : .status ∈ parts) (commits : ∀ t, r = .ok t → Frame regs parts s t) : Frame regs parts s t := by
  rcases complete_cases h with ok | ⟨e, -, rfl⟩
  · exact commits t ok
  · exact .takeFault listed _ e

end

/-- Every instruction keeps the frame of its row: the registers it does not write, the parts it does not write, and the
parameters. -/
theorem exec_frame {i : Instr} {s t : State} (h : exec i s = .next t) :
    Frame (regsWritten i) (partsWritten i) s t := by
  cases i
  case ldVxNn x _ | addVxNn x _ | ldVxVy x _ | or x _ | and x _ | xor x _ =>
    cases h
    exact (Frame.advance _ _ s).aluResultFirst (List.mem_singleton_self x) (.inl rfl)
  case rnd x _ =>
    cases h
    have drawn : Frame [x] [.draws] s { s.advance with draws := s.draws + 1 } :=
      .of_parts rfl rfl fun p hp => by cases p <;> simp_all [Part.Same]
    exact drawn.aluResultFirst (List.mem_singleton_self x) (.inl rfl)
  case addVxVy x _ =>
    cases h
    exact (Frame.advance _ _ s).aluResultFirst (by simp [regsWritten]) (.inr (by simp [regsWritten]))
  case sub x _ | subn x _ | shr x _ | shl x _ =>
    cases h
    exact (Frame.advance _ _ s).aluFlagFirst (by simp [regsWritten]) (by simp [regsWritten])
  case ldVxDt x =>
    cases h
    exact (Frame.advance _ _ s).setReg (List.mem_singleton_self x) _
  case seVxNn | sneVxNn | seVxVy | sneVxVy =>
    cases h
    exact .skipIf _ _ s _
  case skp x | sknp x =>
    refine .complete h (List.mem_singleton_self _) fun t ok => ?_
    split at ok <;> cases ok
    exact .skipIf _ _ s _
  case call nnn =>
    by_cases room : s.sp.val < 16
    · rw [exec_call_ok room] at h
      cases h
      exact .of_parts rfl rfl fun p hp => by cases p <;> simp_all [Part.Same, partsWritten]
    · rw [exec_call_full (Fin.ext (by omega))] at h
      cases h
      exact .takeFault (by simp [partsWritten]) _ _
  case ret =>
    by_cases entry : s.sp.val ≠ 0
    · rw [exec_ret_ok entry] at h
      cases h
      exact .of_parts rfl rfl fun p hp => by cases p <;> simp_all [Part.Same, partsWritten]
    · rw [exec_ret_empty (Fin.ext (not_not.mp entry))] at h
      cases h
      exact .takeFault (by simp [partsWritten]) _ _
  case drw x y n =>
    refine .complete h (by simp [partsWritten]) fun t ok => ?_
    split at ok <;> cases ok
    have drawn (fb : Framebuffer) : Frame [vf] [.fb, .status] s { s.advance with fb := fb } :=
      .of_parts rfl rfl fun p hp => by cases p <;> simp_all [Part.Same]
    exact (drawn _).setReg (List.mem_singleton_self vf) _
  case ldVxMem x =>
    by_cases inMemory : s.effAddr x.val < 4096
    · rw [exec_ldVxMem_ok inMemory] at h
      cases h
      refine (Frame.advance _ _ s).setRegs fun n _ hn => ?_
      rw [List.length_map, List.length_range, Nat.zero_add] at hn
      exact mem_regsUpTo.mpr ((Nat.mod_le n 16).trans (Nat.le_of_lt_succ hn))
    · rw [exec_ldVxMem_error (not_lt.mp inMemory)] at h
      cases h
      exact .takeFault (List.mem_singleton_self _) _ _
  case ldBVx x | ldMemVx x =>
    refine .complete h (List.mem_singleton_self _) fun t ok => ?_
    obtain ⟨stored, -⟩ | ⟨fault, -⟩ := State.memWrite_cases ok
    · cases stored
      exact (Frame.advance _ _ s).writeBytes _ _
    · cases fault
  case cls | jp | jpV0 | nop | ldI | addIVx | ldFVx | ldDtVx | ldStVx | ldVxK =>
    cases h
    exact .of_parts rfl rfl fun p hp => by cases p <;> simp_all [Part.Same, partsWritten]

/-- The instructions that may write the framebuffer (10_state.md R44). -/
theorem fb_mem_partsWritten {i : Instr} : .fb ∈ partsWritten i ↔ i = .cls ∨ ∃ x y n, i = .drw x y n := by
  cases i <;> simp [partsWritten]

end Sys2Proof.Machine
end

section
/-! Obligations O34, O37 and O39: clearing the screen, drawing from outside memory, and the writers of the framebuffer
(44_display.md R290, R291, R298). -/

namespace Sys2Proof

/-! Decoding group 0. -/

theorem decodeWord_group0 {w : Word} (h : fieldG w = 0x0) : decodeWord w = decodeGroup0 w := by
  rw [decodeWord, h]; rfl

theorem decodeGroup0_nop {w : Word} (notCls : w ≠ 0x00E0) (notRet : w ≠ 0x00EE) : decodeGroup0 w = .nop w := by
  rw [decodeGroup0, if_neg notCls, if_neg notRet]

end Sys2Proof

namespace Sys2Proof.Machine

/-! The ports and the framebuffer (R290). -/

@[simp] theorem State.writeBytes_fb (s : State) (a : Nat) (bs : List Byte) : (s.writeBytes a bs).fb = s.fb := by
  rw [State.writeBytes_eq]

@[simp] theorem portTick_fb (s : State) : (portTick s).fb = s.fb := by
  rw [portTick]; split <;> rfl

@[simp] theorem portKeyDown_fb (k : Key) (s : State) : (portKeyDown k s).fb = s.fb := by
  rw [portKeyDown]; split <;> rfl

@[simp] theorem portKeyUp_fb (k : Key) (s : State) : (portKeyUp k s).fb = s.fb := by
  rw [portKeyUp]; split <;> rfl

/-- LOAD keeps the framebuffer, in FAULT and out of it. -/
theorem portLoad_fb {img : List Byte} {s t : State} (h : portLoad img s = .next t) : t.fb = s.fb := by
  rw [portLoad] at h
  split at h
  · cases h; rfl
  all_goals
    split at h <;> cases h
    exact State.writeBytes_fb s _ img

/-- A step that changes the framebuffer ran an instruction that may write it. -/
theorem step_changes_fb {s t : State} (h : step s = .next t) (changed : t.fb ≠ s.fb) :
    s.status = .run ∧ ∃ w, s.fetch = .ok w ∧ .fb ∈ partsWritten (decodeWord w) := by
  by_cases run : s.status = .run
  · obtain ⟨w, fetched, executed⟩ | ⟨e, -, rfl⟩ := step_run_cases run h
    · refine ⟨run, w, fetched, ?_⟩
      by_contra unlisted
      exact changed ((exec_frame executed).parts_same .fb unlisted)
    · exact absurd rfl changed
  · rw [step_of_not_run run] at h
    cases h
    exact absurd rfl changed

/-- The pixel query inside the screen. -/
theorem portPixelAt_ok (s : State) (x : Fin 64) (y : Fin 32) : portPixelAt x.val y.val s = .ok (s.fb.pixel x y) :=
  dif_pos ⟨x.isLt, y.isLt⟩

/-- Settles O34: one word, whose meaning blanks the framebuffer and keeps the frame of its row; group 0 has no other
instruction but 00EE. -/
theorem clearScreenClearsEveryPixel : Obligations.ClearScreenClearsEveryPixel := by
  refine ⟨fun w hw => ?word, fun w hg notCls notRet => ?nop, fun s => ?clears⟩
  case word =>
    have isCls : w = 0x00E0 := (and_FFFF w).symm.trans hw
    rw [isCls]; rfl
  case nop => rw [decodeWord_group0 hg, decodeGroup0_nop notCls notRet]
  case clears => exact ⟨_, rfl, rfl, exec_frame (i := .cls) rfl, fun _ => rfl, Framebuffer.pixel_blank⟩

/-- Settles O37: the read of the sprite is checked whole before anything is drawn, so the step aborts. -/
theorem drawOutOfMemoryDrawsNothing : Obligations.DrawOutOfMemoryDrawsNothing :=
  fun _ _ _ _ someRow outside => .of_takeFault (exec_drw_error someRow outside)

/-- Settles O39: a step keeps the framebuffer unless its instruction's row lists it, which only 00E0's and DXYN's do; every
port but RESET keeps it. -/
theorem onlyClearDrawAndResetWritePixels : Obligations.OnlyClearDrawAndResetWritePixels := by
  refine ⟨fun a s t h changed => ?writers, fun s => ⟨_, rfl, Framebuffer.pixel_blank⟩, portPixelAt_ok⟩
  case writers =>
    cases a with
    | reset => exact .inl rfl
    | step =>
      obtain ⟨run, w, fetched, writes⟩ := step_changes_fb h changed
      exact .inr ⟨rfl, run, w, fetched, fb_mem_partsWritten.mp writes⟩
    | load img => exact absurd (portLoad_fb h) changed
    | tick => cases h; exact absurd (portTick_fb s) changed
    | keyDown k => cases h; exact absurd (portKeyDown_fb k s) changed
    | keyUp k => cases h; exact absurd (portKeyUp_fb k s) changed

end Sys2Proof.Machine
end

section
/-! Obligation O40: the instructions that read and set the timers (45_timers_keypad.md R323, R325, R326). -/

namespace Sys2Proof

/-! Decoding the timer rows of group F, from the fields of the word. -/

section
variable {w : Word}

theorem decodeGroupF_ldVxDt (h : fieldNN w = 0x07) : decodeGroupF w = .ldVxDt (fieldX w) := by
  rw [decodeGroupF, h]; rfl

theorem decodeGroupF_ldDtVx (h : fieldNN w = 0x15) : decodeGroupF w = .ldDtVx (fieldX w) := by
  rw [decodeGroupF, h]; rfl

theorem decodeGroupF_ldStVx (h : fieldNN w = 0x18) : decodeGroupF w = .ldStVx (fieldX w) := by
  rw [decodeGroupF, h]; rfl

end

end Sys2Proof

namespace Sys2Proof.Machine

/-- An instruction that advances the pc and leaves memory alone completes within the frame of its row. -/
theorem Completes.of_exec {i : Instr} {s t : State} {P : State → Prop} (run : exec i s = .next t)
    (pc : t.pc = s.pc + 2) (mem : MemSame s t) (result : P t) : Completes i s (regsWritten i) (partsWritten i) P :=
  ⟨t, run, pc, exec_frame run, mem, result⟩

/-- Settles O40: three rows of group F, each of which advances the pc and makes one write, of the register or of the timer
its row lists; DT is not among the parts FX07's row lists. -/
theorem timerInstructionsMoveTheTimers : Obligations.TimerInstructionsMoveTheTimers := by
  refine ⟨rowDecodes_groupF 0x07 fun _ => decodeGroupF_ldVxDt, rowDecodes_groupF 0x15 fun _ => decodeGroupF_ldDtVx,
    rowDecodes_groupF 0x18 fun _ => decodeGroupF_ldStVx, fun x s => ⟨?readDt, ?setDt, ?setSt⟩⟩
  case readDt =>
    have written : (s.advance.setReg x s.dt).reg x = s.dt := by rw [State.reg_setReg, if_pos rfl]
    exact .of_exec (i := .ldVxDt x) rfl rfl (fun _ => rfl) written
  case setDt => exact .of_exec (i := .ldDtVx x) rfl rfl (fun _ => rfl) rfl
  case setSt => exact .of_exec (i := .ldStVx x) rfl rfl (fun _ => rfl) rfl

end Sys2Proof.Machine
end

section
/-! Obligations O1, O3, O4 and O5: the decoder, the encoder and the opcode map agree (30_encoding.md R101-R113). -/

namespace Sys2Proof

/-! Decoding the remaining groups and rows, from the fields of the word. -/

section
variable {w : Word}

theorem decodeWord_group1 (h : fieldG w = 0x1) : decodeWord w = .jp (fieldNNN w) := by
  rw [decodeWord, h]; rfl

theorem decodeWord_group2 (h : fieldG w = 0x2) : decodeWord w = .call (fieldNNN w) := by
  rw [decodeWord, h]; rfl

theorem decodeWord_groupB (h : fieldG w = 0xB) : decodeWord w = .jpV0 (fieldNNN w) := by
  rw [decodeWord, h]; rfl

theorem decodeWord_groupC (h : fieldG w = 0xC) : decodeWord w = .rnd (fieldX w) (fieldNN w) := by
  rw [decodeWord, h]; rfl

theorem decodeWord_groupD (h : fieldG w = 0xD) : decodeWord w = .drw (fieldX w) (fieldY w) (fieldN w) := by
  rw [decodeWord, h]; rfl

theorem decodeWord_groupE (h : fieldG w = 0xE) : decodeWord w = decodeGroupE w := by
  rw [decodeWord, h]; rfl

theorem decodeGroup8_addVxVy (h : fieldN w = 0x4) : decodeGroup8 w = .addVxVy (fieldX w) (fieldY w) := by
  rw [decodeGroup8, h]; rfl

theorem decodeGroup8_sub (h : fieldN w = 0x5) : decodeGroup8 w = .sub (fieldX w) (fieldY w) := by
  rw [decodeGroup8, h]; rfl

theorem decodeGroup8_shr (h : fieldN w = 0x6) : decodeGroup8 w = .shr (fieldX w) (fieldY w) := by
  rw [decodeGroup8, h]; rfl

theorem decodeGroup8_subn (h : fieldN w = 0x7) : decodeGroup8 w = .subn (fieldX w) (fieldY w) := by
  rw [decodeGroup8, h]; rfl

theorem decodeGroup8_shl (h : fieldN w = 0xE) : decodeGroup8 w = .shl (fieldX w) (fieldY w) := by
  rw [decodeGroup8, h]; rfl

theorem decodeGroupE_skp (h : fieldNN w = 0x9E) : decodeGroupE w = .skp (fieldX w) := by
  rw [decodeGroupE, h]; rfl

theorem decodeGroupE_sknp (h : fieldNN w = 0xA1) : decodeGroupE w = .sknp (fieldX w) := by
  rw [decodeGroupE, h]; rfl

theorem decodeGroupF_ldVxK (h : fieldNN w = 0x0A) : decodeGroupF w = .ldVxK (fieldX w) := by
  rw [decodeGroupF, h]; rfl

theorem decodeGroupF_addIVx (h : fieldNN w = 0x1E) : decodeGroupF w = .addIVx (fieldX w) := by
  rw [decodeGroupF, h]; rfl

theorem decodeGroupF_ldFVx (h : fieldNN w = 0x29) : decodeGroupF w = .ldFVx (fieldX w) := by
  rw [decodeGroupF, h]; rfl

end

/-! Encoding gives the word back: each format is rebuilt from the fields the decoder tested and the fields it read. -/

section
variable {w : Word} {g n : Nibble} {nn : Byte}

theorem formA_of_fields (hg : (fieldG w).toNat = g.toNat) : formA g (fieldNNN w) = w := by
  rw [← BitVec.eq_of_toNat_eq hg, formA_fields]

theorem formXNN_of_fields (hg : (fieldG w).toNat = g.toNat) : formXNN g (fieldX w) (fieldNN w) = w := by
  rw [← BitVec.eq_of_toNat_eq hg, formXNN_fields]

theorem formXNN_of_fixed (hg : (fieldG w).toNat = g.toNat) (hnn : (fieldNN w).toNat = nn.toNat) :
    formXNN g (fieldX w) nn = w := by
  rw [← BitVec.eq_of_toNat_eq hnn, formXNN_of_fields hg]

theorem formXYN_of_fields (hg : (fieldG w).toNat = g.toNat) : formXYN g (fieldX w) (fieldY w) (fieldN w) = w := by
  rw [← BitVec.eq_of_toNat_eq hg, formXYN_fields]

theorem formXYN_of_fixed (hg : (fieldG w).toNat = g.toNat) (hn : (fieldN w).toNat = n.toNat) :
    formXYN g (fieldX w) (fieldY w) n = w := by
  rw [← BitVec.eq_of_toNat_eq hn, formXYN_of_fields hg]

theorem encode_decodeGroup0 : encode (decodeGroup0 w) = w := by
  rw [decodeGroup0]
  split_ifs with isCls isRet
  · exact isCls.symm
  · exact isRet.symm
  · rfl

theorem encode_decodeGroup8 (hg : (fieldG w).toNat = 0x8) : encode (decodeGroup8 w) = w := by
  rw [decodeGroup8]
  split
  case h_10 => rfl
  all_goals exact formXYN_of_fixed hg ‹_›

theorem encode_decodeGroupE (hg : (fieldG w).toNat = 0xE) : encode (decodeGroupE w) = w := by
  rw [decodeGroupE]
  split
  case h_3 => rfl
  all_goals exact formXNN_of_fixed hg ‹_›

theorem encode_decodeGroupF (hg : (fieldG w).toNat = 0xF) : encode (decodeGroupF w) = w := by
  rw [decodeGroupF]
  split
  case h_10 => rfl
  all_goals exact formXNN_of_fixed hg ‹_›

end

theorem encode_decodeWord (w : Word) : encode (decodeWord w) = w := by
  have bound := (fieldG w).isLt
  rw [decodeWord]
  split
  case h_1 => exact encode_decodeGroup0
  case h_2 hg | h_3 hg | h_11 hg | h_12 hg => exact formA_of_fields hg
  case h_4 hg | h_5 hg | h_7 hg | h_8 hg | h_13 hg => exact formXNN_of_fields hg
  case h_6 hg | h_10 hg =>
    split_ifs with hn
    · exact formXYN_of_fixed hg hn
    · rfl
  case h_9 hg => exact encode_decodeGroup8 hg
  case h_14 hg => exact formXYN_of_fields hg
  case h_15 hg => exact encode_decodeGroupE hg
  case h_16 =>
    have hg : (fieldG w).toNat = 0xF := by
      simp only [imp_false] at *
      omega
    exact encode_decodeGroupF hg

/-! The opcode map: every row names the instruction its words decode to. -/

/-- Every word a row covers decodes to an instruction with the row's mnemonic (R113). -/
def OpcodeRow.NamesItsWords (r : OpcodeRow) : Prop :=
  ∀ w : Word, w &&& r.mask = r.value → (decodeWord w).mnemonic = r.mnemonic

end Sys2Proof

namespace Sys2Proof.Machine

theorem RowDecodes.namesItsWords {mask value : Word} {i : Word → Instr} {name : String} (h : RowDecodes mask value i)
    (named : ∀ w, (i w).mnemonic = name) : OpcodeRow.NamesItsWords ⟨name, mask, value⟩ :=
  fun w covered => (congrArg Instr.mnemonic (h w covered)).trans (named w)

/-- A row of group E decodes as the group does for every word of its low byte. -/
theorem rowDecodes_groupE (nn : Byte) {i : Word → Instr} (h : ∀ w, fieldNN w = nn → decodeGroupE w = i w) :
    RowDecodes 0xF0FF (formXNN 0xE 0 nn) i :=
  rowDecodes_F0FF 0xE nn fun w hg hn => (decodeWord_groupE hg).trans (h w hn)

/-- A row whose mask keeps every bit decodes as its one word does. -/
theorem rowDecodes_FFFF (value : Word) : RowDecodes 0xFFFF value (fun _ => decodeWord value) :=
  fun w hw => by rw [← hw, and_FFFF]

theorem opcodeMapFlow_namesItsWords : ∀ r ∈ opcodeMapFlow, r.NamesItsWords := by
  simp only [opcodeMapFlow, List.forall_mem_cons]
  exact ⟨(rowDecodes_FFFF 0x00E0).namesItsWords fun _ => rfl, (rowDecodes_FFFF 0x00EE).namesItsWords fun _ => rfl,
    (rowDecodes_F000 0x1 fun _ => decodeWord_group1).namesItsWords fun _ => rfl,
    (rowDecodes_F000 0x2 fun _ => decodeWord_group2).namesItsWords fun _ => rfl,
    (rowDecodes_F000 0x3 fun _ => decodeWord_group3).namesItsWords fun _ => rfl,
    (rowDecodes_F000 0x4 fun _ => decodeWord_group4).namesItsWords fun _ => rfl,
    (skipsCompareTwoRegisters.1).namesItsWords fun _ => rfl, (skipsCompareTwoRegisters.2.1).namesItsWords fun _ => rfl,
    (rowDecodes_F000 0x6 fun _ => decodeWord_group6).namesItsWords fun _ => rfl,
    (rowDecodes_F000 0x7 fun _ => decodeWord_group7).namesItsWords fun _ => rfl, List.forall_mem_nil _⟩

theorem opcodeMapAlu_namesItsWords : ∀ r ∈ opcodeMapAlu, r.NamesItsWords := by
  simp only [opcodeMapAlu, List.forall_mem_cons]
  exact ⟨(rowDecodes_group8 0x0 fun _ => decodeGroup8_ldVxVy).namesItsWords fun _ => rfl,
    (rowDecodes_group8 0x1 fun _ => decodeGroup8_or).namesItsWords fun _ => rfl,
    (rowDecodes_group8 0x2 fun _ => decodeGroup8_and).namesItsWords fun _ => rfl,
    (rowDecodes_group8 0x3 fun _ => decodeGroup8_xor).namesItsWords fun _ => rfl,
    (rowDecodes_group8 0x4 fun _ => decodeGroup8_addVxVy).namesItsWords fun _ => rfl,
    (rowDecodes_group8 0x5 fun _ => decodeGroup8_sub).namesItsWords fun _ => rfl,
    (rowDecodes_group8 0x6 fun _ => decodeGroup8_shr).namesItsWords fun _ => rfl,
    (rowDecodes_group8 0x7 fun _ => decodeGroup8_subn).namesItsWords fun _ => rfl,
    (rowDecodes_group8 0xE fun _ => decodeGroup8_shl).namesItsWords fun _ => rfl, List.forall_mem_nil _⟩

theorem opcodeMapRest_namesItsWords : ∀ r ∈ opcodeMapRest, r.NamesItsWords := by
  simp only [opcodeMapRest, List.forall_mem_cons]
  exact ⟨(rowDecodes_F000 0xA fun _ => decodeWord_groupA).namesItsWords fun _ => rfl,
    (rowDecodes_F000 0xB fun _ => decodeWord_groupB).namesItsWords fun _ => rfl,
    (rowDecodes_F000 0xC fun _ => decodeWord_groupC).namesItsWords fun _ => rfl,
    (rowDecodes_F000 0xD fun _ => decodeWord_groupD).namesItsWords fun _ => rfl,
    (rowDecodes_groupE 0x9E fun _ => decodeGroupE_skp).namesItsWords fun _ => rfl,
    (rowDecodes_groupE 0xA1 fun _ => decodeGroupE_sknp).namesItsWords fun _ => rfl,
    (rowDecodes_groupF 0x07 fun _ => decodeGroupF_ldVxDt).namesItsWords fun _ => rfl,
    (rowDecodes_groupF 0x0A fun _ => decodeGroupF_ldVxK).namesItsWords fun _ => rfl,
    (rowDecodes_groupF 0x15 fun _ => decodeGroupF_ldDtVx).namesItsWords fun _ => rfl,
    (rowDecodes_groupF 0x18 fun _ => decodeGroupF_ldStVx).namesItsWords fun _ => rfl,
    (rowDecodes_groupF 0x1E fun _ => decodeGroupF_addIVx).namesItsWords fun _ => rfl,
    (rowDecodes_groupF 0x29 fun _ => decodeGroupF_ldFVx).namesItsWords fun _ => rfl,
    (rowDecodes_groupF 0x33 fun _ => decodeGroupF_ldBVx).namesItsWords fun _ => rfl,
    (rowDecodes_groupF 0x55 fun _ => decodeGroupF_ldMemVx).namesItsWords fun _ => rfl,
    (rowDecodes_groupF 0x65 fun _ => decodeGroupF_ldVxMem).namesItsWords fun _ => rfl, List.forall_mem_nil _⟩

theorem opcodeMap_namesItsWords {r : OpcodeRow} (hr : r ∈ opcodeMap) : r.NamesItsWords := by
  rcases List.mem_append.mp hr with hr | hr
  · rcases List.mem_append.mp hr with hr | hr
    · exact opcodeMapFlow_namesItsWords r hr
    · exact opcodeMapAlu_namesItsWords r hr
  · exact opcodeMapRest_namesItsWords r hr

end Sys2Proof.Machine

namespace Sys2Proof

open Machine

/-! Well-formed instructions, their rows and their words. -/

/-- Every instruction's word lies in its own row (the statements made per instruction, together). -/
theorem rowMatch : (i : Instr) → Laws.RowMatch.Statement i
  | .cls => Laws.RowMatch.cls
  | .ret => Laws.RowMatch.ret
  | .jp nnn => Laws.RowMatch.jp nnn
  | .call nnn => Laws.RowMatch.call nnn
  | .seVxNn x nn => Laws.RowMatch.seVxNn x nn
  | .sneVxNn x nn => Laws.RowMatch.sneVxNn x nn
  | .seVxVy x y => Laws.RowMatch.seVxVy x y
  | .sneVxVy x y => Laws.RowMatch.sneVxVy x y
  | .ldVxNn x nn => Laws.RowMatch.ldVxNn x nn
  | .addVxNn x nn => Laws.RowMatch.addVxNn x nn
  | .ldVxVy x y => Laws.RowMatch.ldVxVy x y
  | .or x y => Laws.RowMatch.or x y
  | .and x y => Laws.RowMatch.and x y
  | .xor x y => Laws.RowMatch.xor x y
  | .addVxVy x y => Laws.RowMatch.addVxVy x y
  | .sub x y => Laws.RowMatch.sub x y
  | .shr x y => Laws.RowMatch.shr x y
  | .subn x y => Laws.RowMatch.subn x y
  | .shl x y => Laws.RowMatch.shl x y
  | .ldI nnn => Laws.RowMatch.ldI nnn
  | .jpV0 nnn => Laws.RowMatch.jpV0 nnn
  | .rnd x nn => Laws.RowMatch.rnd x nn
  | .drw x y n => Laws.RowMatch.drw x y n
  | .skp x => Laws.RowMatch.skp x
  | .sknp x => Laws.RowMatch.sknp x
  | .ldVxDt x => Laws.RowMatch.ldVxDt x
  | .ldVxK x => Laws.RowMatch.ldVxK x
  | .ldDtVx x => Laws.RowMatch.ldDtVx x
  | .ldStVx x => Laws.RowMatch.ldStVx x
  | .addIVx x => Laws.RowMatch.addIVx x
  | .ldFVx x => Laws.RowMatch.ldFVx x
  | .ldBVx x => Laws.RowMatch.ldBVx x
  | .ldMemVx x => Laws.RowMatch.ldMemVx x
  | .ldVxMem x => Laws.RowMatch.ldVxMem x
  | .nop w => Laws.RowMatch.nop w

/-- An instruction is a NOP, or the map has a row with its mnemonic. -/
theorem nop_or_mnemonic_mem (i : Instr) : (∃ w, i = .nop w) ∨ ∃ r ∈ opcodeMap, r.mnemonic = i.mnemonic := by
  cases i
  case nop w => exact .inl ⟨w, rfl⟩
  all_goals exact .inr (List.mem_map.mp (List.elem_iff.mp rfl))

theorem mnemonic_ne_nop_of_mem {r : OpcodeRow} (hr : r ∈ opcodeMap) : r.mnemonic ≠ "NOP" := by
  have none : ∀ r ∈ opcodeMap, r.mnemonic ≠ "NOP" := by decide
  exact none r hr

theorem opcodeMap_mnemonic_inj {r r' : OpcodeRow} (hr : r ∈ opcodeMap) (hr' : r' ∈ opcodeMap)
    (h : r.mnemonic = r'.mnemonic) : r = r' := by
  have distinct : (opcodeMap.map OpcodeRow.mnemonic).Nodup := by decide
  exact List.inj_on_of_nodup_map distinct hr hr' h

theorem OpcodeRow.covers_iff {r : OpcodeRow} {w : Word} : r.covers w = true ↔ w &&& r.mask = r.value := beq_iff_eq

theorem definedWord_eq_false_iff {w : Word} : definedWord w = false ↔ ∀ r ∈ opcodeMap, ¬ w &&& r.mask = r.value := by
  simp only [definedWord, List.any_eq_false, OpcodeRow.covers_iff]

/-- A NOP's word is one no row covers: a row would have named it. -/
theorem undefined_of_decodeWord_nop {w w' : Word} (h : decodeWord w = .nop w') : definedWord w = false :=
  definedWord_eq_false_iff.mpr fun r hr covered => by
    have named := opcodeMap_namesItsWords hr w covered
    rw [h] at named
    exact mnemonic_ne_nop_of_mem hr named.symm

theorem decodeWord_wf (w : Word) : (decodeWord w).wf = true := by
  have word := encode_decodeWord w
  cases h : decodeWord w
  case nop w' =>
    rw [h] at word
    have sameWord : w' = w := word
    rw [Instr.wf, sameWord, undefined_of_decodeWord_nop h, Bool.not_false]
  all_goals rfl

/-- A word no row covers decodes to the NOP with that word: any other instruction would have it in its row. -/
theorem decodeWord_of_undefined {w : Word} (h : definedWord w = false) : decodeWord w = .nop w := by
  have word := encode_decodeWord w
  rcases nop_or_mnemonic_mem (decodeWord w) with ⟨w', isNop⟩ | ⟨r, hr, named⟩
  · rw [isNop] at word
    have sameWord : w' = w := word
    rw [isNop, sameWord]
  · have covered := (rowMatch (decodeWord w) (decodeWord_wf w) r hr).1 named
    rw [word] at covered
    exact absurd (OpcodeRow.covers_iff.mp covered) (definedWord_eq_false_iff.mp h r hr)

theorem decodeWord_eq_nop_iff {w : Word} : decodeWord w = .nop w ↔ definedWord w = false :=
  ⟨undefined_of_decodeWord_nop, decodeWord_of_undefined⟩

/-- A row's words are exactly those that decode to an instruction of its mnemonic. -/
theorem mnemonic_decodeWord_iff {r : OpcodeRow} (hr : r ∈ opcodeMap) (w : Word) :
    (decodeWord w).mnemonic = r.mnemonic ↔ w &&& r.mask = r.value := by
  refine ⟨fun named => ?covered, opcodeMap_namesItsWords hr w⟩
  have covered := (rowMatch (decodeWord w) (decodeWord_wf w) r hr).1 named.symm
  rw [encode_decodeWord] at covered
  exact OpcodeRow.covers_iff.mp covered

/-- Settles O1: each word is decoded. -/
theorem sampleWordsDecode : Obligations.SampleWordsDecode := by
  unfold Obligations.SampleWordsDecode
  decide

/-- Settles O3: the fields of an encoded word are the operands it was built from, and a well-formed NOP's word is in no
row. -/
theorem decodeOfEncodeIsIdentity : Obligations.DecodeOfEncodeIsIdentity := by
  intro i wf
  cases i
  case nop w => exact decodeWord_of_undefined (Bool.not_eq_true' _ ▸ wf)
  case cls | ret => rfl
  case jp | call | ldI | jpV0 => simp only [encode, decodeWord, fieldG_formA, fieldNNN_formA]; rfl
  case seVxNn | sneVxNn | ldVxNn | addVxNn | rnd =>
    simp only [encode, decodeWord, fieldG_formXNN, fieldX_formXNN, fieldNN_formXNN]; rfl
  case drw | seVxVy | sneVxVy =>
    simp only [encode, decodeWord, fieldG_formXYN, fieldX_formXYN, fieldY_formXYN, fieldN_formXYN]; rfl
  case ldVxVy | or | and | xor | addVxVy | sub | shr | subn | shl =>
    rw [encode, decodeWord_group8 (fieldG_formXYN ..)]
    simp only [decodeGroup8, fieldX_formXYN, fieldY_formXYN, fieldN_formXYN]; rfl
  case skp | sknp =>
    rw [encode, decodeWord_groupE (fieldG_formXNN ..)]
    simp only [decodeGroupE, fieldX_formXNN, fieldNN_formXNN]; rfl
  all_goals
    rw [encode, decodeWord_groupF (fieldG_formXNN ..)]
    simp only [decodeGroupF, fieldX_formXNN, fieldNN_formXNN]; rfl

/-- Settles O4: the decoder reads every field its format has and tests the rest; a word it makes a NOP is in no row. -/
theorem encodeOfDecodeIsIdentity : Obligations.EncodeOfDecodeIsIdentity :=
  fun w => ⟨decodeWord_wf w, encode_decodeWord w⟩

/-- Settles O5: the rows have distinct mnemonics and each names exactly the words it covers, so two rows that cover a word
are one row. -/
theorem opcodeMapDecidesTheInstruction : Obligations.OpcodeMapDecidesTheInstruction := by
  refine ⟨fun w r hr => mnemonic_decodeWord_iff hr w, fun w r r' hr hr' covers covers' => ?oneRow, fun w => ?nop⟩
  case oneRow =>
    have named := (mnemonic_decodeWord_iff hr w).mpr covers
    have named' := (mnemonic_decodeWord_iff hr' w).mpr covers'
    exact opcodeMap_mnemonic_inj hr hr' (named.symm.trans named')
  case nop => exact decodeWord_eq_nop_iff.trans definedWord_eq_false_iff

end Sys2Proof
end

section
/-! Obligations O6 to O11: the step, and the faults a step can end in (40_pipeline.md R131-R137; 60_exceptions.md R355,
R357). -/

namespace Sys2Proof.Machine

section
variable {s t : State} {w : Word} {r : FaultRecord}

theorem step_of_fetch (run : s.status = .run) (fetched : s.fetch = .ok w) : step s = exec (decodeWord w) s := by
  rw [step_of_run run]
  simp only [fetched]

theorem step_of_fetch_error {e : Raise} (run : s.status = .run) (failed : s.fetch = .error e) :
    step s = .next (s.takeFault none e) := by
  rw [step_of_run run]
  simp only [failed]

/-- The fetched word, given as the number its two bytes make. -/
theorem State.fetch_of_toNat (inMemory : s.pc.toNat + 1 < 4096)
    (word : w.toNat = 256 * (s.readByte s.pc.toNat).toNat + (s.readByte (s.pc.toNat + 1)).toNat) : s.fetch = .ok w := by
  rw [State.fetch_ok inMemory]
  congr 1
  apply BitVec.eq_of_toNat_eq
  rw [wordOfBytes_toNat, word, Nat.mul_comm]

/-! What a faulting step did. -/

/-- What the fault of an instruction i, raised from s, says: its kind is i's own, and its info tells why it was raised. -/
structure FaultOfExec (i : Instr) (s : State) (e : Raise) : Prop where
  kind : faultOf i = some e.code
  memory : e.code = .memOutOfBounds → e.info = some (BitVec.ofNat 16 (max s.i.toNat Config.memSize))
  overflow : e.code = .stackOverflow → s.sp = 16 ∧ e.info = none
  underflow : e.code = .stackUnderflow → s.sp = 0 ∧ e.info = none
  key : e.code = .keyIndexOutOfRange →
    ∃ x, (i = .skp x ∨ i = .sknp x) ∧ 16 ≤ (s.reg x).toNat ∧ e.info = some ((s.reg x).setWidth 16)

/-- The inversion of exec for its effect on the status. -/
theorem exec_status_cases {i : Instr} (h : exec i s = .next t) :
    t.status = s.status ∨ (∃ x, i = .ldVxK x ∧ t.status = .waitKey x) ∨
      ∃ e, t = s.takeFault (some (encode i)) e ∧ FaultOfExec i s e := by
  rcases exec_cases i s t h with (kept | waits) | ⟨⟨code, info⟩, taken, kind, why⟩
  · exact .inl kept
  · exact .inr (.inl waits)
  · refine .inr (.inr ⟨_, taken, kind, ?_, ?_, ?_, ?_⟩) <;> rintro ⟨⟩ <;> exact why

/-- A step from RUN that ends in FAULT took the fault of the fetched instruction, with its word in the record, or the
fault of the fetch, with none. -/
theorem step_fault_cases (run : s.status = .run) (h : step s = .next t) (faults : t.status = .fault r) :
    (∃ w e, s.fetch = .ok w ∧ t = s.takeFault (some w) e ∧ FaultOfExec (decodeWord w) s e) ∨
      ∃ e, s.fetch = .error e ∧ t = s.takeFault none e := by
  rcases step_run_cases run h with ⟨w, fetched, executed⟩ | failed
  · rcases exec_status_cases executed with kept | ⟨x, -, waits⟩ | ⟨e, taken, fault⟩
    · rw [kept, run] at faults; cases faults
    · rw [waits] at faults; cases faults
    · rw [encode_decodeWord] at taken
      exact .inl ⟨w, e, fetched, taken, fault⟩
  · exact .inr failed

/-- Committing and aborting both answer a next state. -/
theorem complete_answers (op : Word) (s : State) (r : Except Raise State) : ∃ t, complete op s r = .next t := by
  cases r with
  | ok t => exact ⟨t, rfl⟩
  | error e => exact ⟨_, rfl⟩

theorem exec_answers (i : Instr) (s : State) : ∃ t, exec i s = .next t := by
  cases i
  case call | ret | drw | skp | sknp | ldBVx | ldMemVx | ldVxMem => exact complete_answers _ s _
  all_goals exact ⟨_, rfl⟩

theorem step_answers (s : State) : ∃ t, step s = .next t := by
  by_cases run : s.status = .run
  · cases fetch : s.fetch with
    | ok w => rw [step_of_fetch run fetch]; exact exec_answers _ s
    | error e => exact ⟨_, step_of_fetch_error run fetch⟩
  · exact ⟨s, step_of_not_run run⟩

end

/-- Settles O6: the fetched word is the number its two bytes make. -/
theorem stepRunsTheDecodedInstruction : Obligations.StepRunsTheDecodedInstruction :=
  fun _ _ run inMemory word => step_of_fetch run (State.fetch_of_toNat inMemory word)

/-- Settles O7: the guard of the step. -/
theorem stepOutsideRunChangesNothing : Obligations.StepOutsideRunChangesNothing := fun _ => step_of_not_run

/-- Settles O8: at 0xFFF or above the fetch's check fails, at the pc or at 0x1000. -/
theorem fetchOutOfRangeFaults : Obligations.FetchOutOfRangeFaults := by
  intro s run high
  have outside : ¬ s.pc.toNat + 2 ≤ Config.memSize := by rw [Config.memSize_eq]; omega
  exact ⟨_, outOfRange_toNat s.pc, step_of_fetch_error run (State.fetch_error outside)⟩

/-- Settles O9: both ways a step takes a fault change the status alone. -/
theorem faultsArePrecise : Obligations.FaultsArePrecise := by
  intro s t r run h faults
  rcases step_fault_cases run h faults with ⟨w, e, fetched, rfl, -⟩ | ⟨e, failed, rfl⟩
  · cases faults
    exact ⟨rfl, rfl, .inl ⟨w, fetched, rfl⟩⟩
  · cases faults
    exact ⟨rfl, rfl, .inr ⟨fun w fetched => (nomatch fetched.symm.trans failed), rfl⟩⟩

/-- Settles O10: a fault of the execution has its instruction's kind, and only the fetch leaves no word. -/
theorem faultKindOfEachInstruction : Obligations.FaultKindOfEachInstruction := by
  intro s t r run h faults
  rcases step_fault_cases run h faults with ⟨w, e, -, rfl, fault⟩ | ⟨e, failed, rfl⟩
  · cases faults
    exact ⟨fun w' same => Option.some.inj same ▸ fault.kind, nofun⟩
  · cases faults
    obtain ⟨high, rfl⟩ := State.fetch_error_cases failed
    exact ⟨nofun, fun _ => ⟨rfl, high⟩⟩

/-- Settles O11: every meaning commits, aborts or answers outright, and so does the step around it. -/
theorem everyStepAnswersANextState : Obligations.EveryStepAnswersANextState := ⟨step_answers, exec_answers⟩

end Sys2Proof.Machine
end

section
/-! Obligation O50, and the inversion of exec it shares with the invariants: what an instruction does to the pc, the stack
and memory (40_pipeline.md R140, 41_control_flow.md, 20_memory.md R71). -/

namespace Sys2Proof.Machine

/-- What instruction i can make of s, as far as the pc, the return stack and memory go. The frame of its row says what
becomes of the rest (exec_frame). -/
inductive Effect (i : Instr) (s : State) : State → Prop
  /-- The pc advances; the stack and memory are kept. -/
  | advances {t : State} (pc : t.pc = s.pc + 2) (stack : t.stack = s.stack) (mem : t.mem = s.mem) : Effect i s t
  /-- A conditional skip (41_control_flow.md R160). -/
  | skips (c : Bool) : Effect i s (s.advance.skipIf c)
  /-- A jump; BNNN reaches furthest (41_control_flow.md R161, R168; decision D5). -/
  | jumps (target : Word) (reach : target.toNat ≤ 0x10FE) : Effect i s { s with pc := target }
  /-- 2NNN with a free slot (41_control_flow.md R162). -/
  | calls (nnn : Addr) (room : s.sp.val < 16) : Effect i s { s with
      pc := zext16 nnn, stack := s.stack.set s.sp.val (s.pc + 2) room, sp := ⟨s.sp.val + 1, by omega⟩ }
  /-- 00EE with an entry (41_control_flow.md R163). -/
  | returns (entry : s.sp.val ≠ 0) : Effect i s { s with
      pc := s.stack[s.sp.val - 1], sp := ⟨s.sp.val - 1, by omega⟩ }
  /-- The instruction's block of bytes is stored at I, all of it in memory. -/
  | stores (bs : List Byte) (length : bs.length = bytesStored i) (inMemory : s.effAddr 0 + bs.length ≤ Config.memSize) :
      Effect i s (s.advance.writeBytes (s.effAddr 0) bs)
  /-- The step is aborted (40_pipeline.md R137). -/
  | aborts (opcode : Option Word) (e : Raise) : Effect i s (s.takeFault opcode e)

section
variable {i : Instr} {s t : State}

theorem Effect.of_memWrite {bs : List Byte} {op : Word} (length : bs.length = bytesStored i) (nonempty : bs.length ≠ 0)
    (h : complete op s (s.advance.memWrite (s.effAddr 0) bs) = .next t) : Effect i s t := by
  rcases complete_cases h with ok | ⟨e, -, rfl⟩
  · rcases State.memWrite_cases ok with ⟨stored, inMemory⟩ | ⟨failed, -⟩
    · cases stored
      exact .stores bs length (inMemory.resolve_left nonempty)
    · cases failed
  · exact .aborts _ e

theorem jumpTarget_toNat (nnn : Addr) (b : Byte) : (jumpTarget nnn b).toNat = nnn.toNat + b.toNat := by
  have address := nnn.isLt
  have byte := b.isLt
  rw [jumpTarget, BitVec.toNat_add, zext16_toNat, BitVec.toNat_setWidth_of_le (by decide), Nat.mod_eq_of_lt (by omega)]

/-- The inversion of exec for the pc, the stack and memory. -/
theorem exec_effect (h : exec i s = .next t) : Effect i s t := by
  cases i
  case jp nnn =>
    cases h
    have address := nnn.isLt
    exact .jumps _ (by rw [zext16_toNat]; omega)
  case jpV0 nnn =>
    cases h
    have address := nnn.isLt
    have byte := (s.reg 0).isLt
    exact .jumps _ (by rw [jumpTarget_toNat]; omega)
  case call nnn =>
    by_cases room : s.sp.val < 16
    · rw [exec_call_ok room] at h
      cases h
      exact .calls nnn room
    · rw [exec_call_full (Fin.ext (by omega))] at h
      cases h
      exact .aborts _ _
  case ret =>
    by_cases entry : s.sp.val ≠ 0
    · rw [exec_ret_ok entry] at h
      cases h
      exact .returns entry
    · rw [exec_ret_empty (Fin.ext (not_not.mp entry))] at h
      cases h
      exact .aborts _ _
  case seVxNn | sneVxNn | seVxVy | sneVxVy => cases h; exact .skips _
  case skp x | sknp x =>
    rcases complete_cases h with ok | ⟨e, -, rfl⟩
    · split at ok <;> cases ok
      exact .skips _
    · exact .aborts _ e
  case drw x y n =>
    rcases complete_cases h with ok | ⟨e, -, rfl⟩
    · split at ok <;> cases ok
      exact .advances rfl rfl rfl
    · exact .aborts _ e
  case ldVxMem x =>
    rcases complete_cases h with ok | ⟨e, -, rfl⟩
    · split at ok <;> cases ok
      rw [State.setRegs_eq]
      exact .advances rfl rfl rfl
    · exact .aborts _ e
  case ldBVx x => exact .of_memWrite (bs := decimalDigits (s.reg x)) rfl nofun h
  case ldMemVx x =>
    have length := s.regBlock_length x
    exact .of_memWrite length (by omega) h
  all_goals cases h; exact .advances rfl rfl rfl

/-- What an effect leaves of memory: every byte outside the block the instruction's row lets it store. -/
theorem Effect.memSameOutside (effect : Effect i s t) (memWf : s.MemWf) (params : t.params = s.params) :
    MemSameOutside (s.effAddr 0) (bytesStored i) s t := by
  intro b outside
  cases effect with
  | stores bs length inMemory =>
    rw [State.readByte_writeBytes (s := s.advance) memWf inMemory, dif_neg (by omega)]; rfl
  | advances _ _ mem => rw [State.readByte, State.readByte, mem, params]
  | skips c => exact State.readByte_skipIf _ c b
  | jumps | calls | returns | aborts => rfl

end

/-- Settles O50: the frame of the row, and for memory the block at I. -/
theorem instructionsWriteOnlyWhatTheirRulesName : Obligations.InstructionsWriteOnlyWhatTheirRulesName :=
  fun _ _ _ memWf h => ⟨exec_frame h, (exec_effect h).memSameOutside memWf (exec_frame h).params_same⟩

end Sys2Proof.Machine
end

section
/-! Obligations O53, O54 and O55: the invariant of the machine, kept by every step and every port (decisions D5, D6;
60_exceptions.md R354, R392). -/

namespace Sys2Proof.Machine

section
variable {i : Instr} {s t : State}

/-! Memory stays canonical. -/

theorem Effect.memWf (effect : Effect i s t) (params : t.params = s.params) (memWf : s.MemWf) : t.MemWf := by
  unfold State.MemWf at memWf ⊢
  rw [params]
  cases effect with
  | stores bs length inMemory => exact State.writeBytes_wf (s := s.advance) memWf inMemory
  | advances _ _ mem => rw [mem]; exact memWf
  | skips c => rw [State.skipIf_mem]; exact memWf
  | jumps | calls | returns | aborts => exact memWf

/-! The pc and the return addresses stay in range. -/

theorem add_toNat_le (pc n : Word) : (pc + n).toNat ≤ pc.toNat + n.toNat := by
  rw [BitVec.toNat_add]
  exact Nat.mod_le _ _

theorem Effect.pcBounded (effect : Effect i s t) (fetchable : s.pc.toNat ≤ 0xFFE) (bounded : s.PcBounded) :
    t.PcBounded := by
  obtain ⟨-, slots⟩ := bounded
  have two : (s.pc + 2).toNat ≤ 0x1000 := (add_toNat_le s.pc 2).trans (Nat.add_le_add_right fetchable 2)
  have four : (s.pc + 4).toNat ≤ 0x1002 := (add_toNat_le s.pc 4).trans (Nat.add_le_add_right fetchable 4)
  cases effect with
  | advances pc stack =>
    refine ⟨by rw [pc]; omega, fun k => ?_⟩
    rw [stack]; exact slots k
  | skips c =>
    rw [State.skipIf_advance]
    refine ⟨?_, slots⟩
    cases c
    · exact two.trans (by decide)
    · exact four.trans (by decide)
  | jumps target reach => exact ⟨reach, slots⟩
  | calls nnn room =>
    refine ⟨?target, fun k => ?slot⟩
    case target =>
      have address := nnn.isLt
      show (zext16 nnn).toNat ≤ _
      rw [zext16_toNat]; omega
    case slot =>
      show (s.stack.set s.sp.val (s.pc + 2) room)[k.val].toNat ≤ _
      rw [Vector.getElem_set]
      split
      · exact two
      · exact slots k
  | returns entry => exact ⟨(slots ⟨s.sp.val - 1, by omega⟩).trans (by decide), slots⟩
  | stores bs => rw [State.writeBytes_eq]; exact ⟨two.trans (by decide), slots⟩
  | aborts => exact ⟨fetchable.trans (by decide), slots⟩

/-! The fault record describes the frozen state. -/

theorem State.faultConsistent_of_not_fault (h : ∀ r, s.status ≠ .fault r) : s.FaultConsistent := by
  unfold State.FaultConsistent
  split
  · exact absurd ‹_› (h _)
  · trivial
  · trivial

theorem State.fetch_bound {w : Word} (fetched : s.fetch = .ok w) : s.pc.toNat ≤ 0xFFE := by
  by_contra high
  rw [State.fetch_error (by rw [Config.memSize_eq]; omega)] at fetched
  cases fetched

/-- The fault of the fetch. -/
theorem State.faultConsistent_of_fetch_error {e : Raise} (failed : s.fetch = .error e) :
    (s.takeFault none e).FaultConsistent := by
  obtain ⟨high, rfl⟩ := State.fetch_error_cases failed
  exact ⟨rfl, rfl, high, _, rfl, outOfRange_toNat s.pc⟩

/-- The fault of an execution fits the word that was fetched. -/
theorem FaultOfExec.faultConsistent {w : Word} {e : Raise} (fault : FaultOfExec (decodeWord w) s e)
    (fetched : s.fetch = .ok w) : (s.takeFault (some w) e).FaultConsistent := by
  refine ⟨rfl, fetched, fault.kind, ?why⟩
  case why =>
    obtain ⟨code, info⟩ := e
    cases code with
    | memOutOfBounds => exact ⟨_, fault.memory rfl, outOfRange_toNat s.i⟩
    | stackOverflow => exact fault.overflow rfl
    | stackUnderflow => exact fault.underflow rfl
    | keyIndexOutOfRange => exact fault.key rfl

theorem exec_faultConsistent {w : Word} (run : s.status = .run) (fetched : s.fetch = .ok w)
    (h : exec (decodeWord w) s = .next t) : t.FaultConsistent := by
  rcases exec_status_cases h with kept | ⟨x, -, waits⟩ | ⟨e, taken, fault⟩
  · exact State.faultConsistent_of_not_fault (by rw [kept, run]; nofun)
  · exact State.faultConsistent_of_not_fault (by rw [waits]; nofun)
  · rw [taken, encode_decodeWord]
    exact fault.faultConsistent fetched

/-! The step. -/

theorem step_inv (inv : s.Inv) (h : step s = .next t) : t.Inv := by
  by_cases run : s.status = .run
  · rcases step_run_cases run h with ⟨w, fetched, executed⟩ | ⟨e, failed, rfl⟩
    · have effect := exec_effect executed
      exact ⟨effect.memWf (exec_frame executed).params_same inv.memWf,
        effect.pcBounded (State.fetch_bound fetched) inv.pcBounded, exec_faultConsistent run fetched executed⟩
    · exact ⟨inv.memWf, inv.pcBounded, State.faultConsistent_of_fetch_error failed⟩
  · rw [step_of_not_run run] at h
    cases h
    exact inv

/-! The ports. -/

/-- A state that is not in FAULT needs only the memory, the pc and the stack of one that meets the invariant. -/
theorem State.Inv.of_not_fault (inv : s.Inv) (params : t.params = s.params) (mem : t.mem = s.mem) (pc : t.pc = s.pc)
    (stack : t.stack = s.stack) (notFault : ∀ r, t.status ≠ .fault r) : t.Inv where
  memWf := by
    have memWf := inv.memWf
    unfold State.MemWf at memWf ⊢
    rwa [params, mem]
  pcBounded := by
    have bounded := inv.pcBounded
    unfold State.PcBounded at bounded ⊢
    rwa [pc, stack]
  faultConsistent := State.faultConsistent_of_not_fault notFault

/-- The state after reset meets the invariant, whatever parameters and counter of draws the machine keeps. -/
theorem reset_inv (params : Params) (draws : Nat) :
    State.Inv { State.reset with params := params, draws := draws } where
  memWf := Memory.wf_nil _
  pcBounded := ⟨Nat.zero_le _, fun k => by simp [State.reset]⟩
  faultConsistent := trivial

/-- What LOAD can answer: nothing changes in FAULT; outside it an image that fits is placed. -/
theorem portLoad_cases {img : List Byte} (h : portLoad img s = .next t) :
    ((∃ r, s.status = .fault r) ∧ t = s) ∨ ((∀ r, s.status ≠ .fault r) ∧ img.length ≤ Config.maxImage ∧
      t = { s.writeBytes Config.progStart img with pc := BitVec.ofNat 16 Config.progStart }) := by
  unfold portLoad at h
  split at h
  case h_1 r isFault => cases h; exact .inl ⟨⟨r, isFault⟩, rfl⟩
  all_goals
    rename_i status
    split at h <;> cases h
    exact .inr ⟨by rw [status]; nofun, by omega, rfl⟩

theorem portLoad_inv {img : List Byte} (inv : s.Inv) (h : portLoad img s = .next t) : t.Inv := by
  rcases portLoad_cases h with ⟨-, rfl⟩ | ⟨notFault, fits, rfl⟩
  · exact inv
  · have inMemory : Config.progStart + img.length ≤ Config.memSize := Nat.add_le_add_left fits 0x200
    have memWf := State.writeBytes_wf inv.memWf inMemory
    have entry : (BitVec.ofNat 16 Config.progStart).toNat ≤ 0x10FE := by decide
    rw [State.writeBytes_eq]
    exact ⟨memWf, ⟨entry, inv.pcBounded.2⟩, State.faultConsistent_of_not_fault notFault⟩

theorem portTick_inv (inv : s.Inv) : (portTick s).Inv := by
  rw [portTick]
  split
  case h_1 run => exact inv.of_not_fault rfl rfl rfl rfl (by simp [run])
  all_goals exact inv

theorem portKeyDown_inv (k : Key) (inv : s.Inv) : (portKeyDown k s).Inv := by
  rw [portKeyDown]
  split
  case h_1 run => exact inv.of_not_fault rfl rfl rfl rfl (by simp [run])
  case h_2 => exact inv.of_not_fault rfl rfl rfl rfl nofun
  case h_3 => exact inv

theorem portKeyUp_inv (k : Key) (inv : s.Inv) : (portKeyUp k s).Inv := by
  rw [portKeyUp]
  split
  case h_3 => exact inv
  all_goals
    rename_i status
    exact inv.of_not_fault rfl rfl rfl rfl (by simp [status])

end

/-- Settles O53: memory has no cell, the pc and the stack are zero, and the status is RUN. -/
theorem resetMeetsTheInvariant : Obligations.ResetMeetsTheInvariant := reset_inv defaultParams 0

/-- Settles O54: what exec does to the pc, the stack and memory stays in range, and a fault taken describes the state it
leaves. -/
theorem stepKeepsTheInvariant : Obligations.StepKeepsTheInvariant := fun _ _ => step_inv

/-- Settles O55: the step, and each port. -/
theorem transactionsKeepTheInvariant : Obligations.TransactionsKeepTheInvariant := by
  intro a s t inv h
  cases a with
  | reset => cases h; exact reset_inv s.params s.draws
  | load img => exact portLoad_inv inv h
  | step => exact step_inv inv h
  | tick => cases h; exact portTick_inv inv
  | keyDown k => cases h; exact portKeyDown_inv k inv
  | keyUp k => cases h; exact portKeyUp_inv k inv

end Sys2Proof.Machine
end

section
/-! Obligations O12 to O16 and O19: jumps, calls, returns and the NOP (41_control_flow.md R161-R163, R168; 40_pipeline.md
R138). -/

namespace Sys2Proof.Machine

/-- Settles O12: groups 1 and B are one row each, and both meanings set the pc alone; what the next fetch then does is the
law of every fetch. -/
theorem jumpsSetThePc : Obligations.JumpsSetThePc :=
  ⟨rowDecodes_F000 0x1 fun _ => decodeWord_group1, rowDecodes_F000 0xB fun _ => decodeWord_groupB, fun nnn s =>
    ⟨⟨_, rfl, zext16_toNat nnn, .setPc s _, fun _ => rfl, fetchOutOfRangeFaults _⟩,
      ⟨_, rfl, jumpTarget_toNat nnn (s.reg 0), .setPc s _, fun _ => rfl, fetchOutOfRangeFaults _⟩⟩⟩

/-- Settles O13: the push writes slot SP and no other. -/
theorem callPushesTheReturnAddress : Obligations.CallPushesTheReturnAddress := by
  intro nnn s room
  refine ⟨_, exec_call_ok room, zext16_toNat nnn, rfl, fun k => ?slots,
    .of_parts rfl rfl fun p unlisted => ?frame, fun _ => rfl⟩
  case slots =>
    show (s.stack.set s.sp.val (s.pc + 2) room)[k.val] = _
    simp only [Vector.getElem_set, eq_comm (a := s.sp.val)]
    rfl
  case frame => cases p <;> simp_all [Part.Same]

/-- Settles O14: the pop reads the slot below SP and writes none. -/
theorem returnPopsIntoThePc : Obligations.ReturnPopsIntoThePc := by
  intro s entry
  refine ⟨_, exec_ret_ok (Nat.ne_of_gt entry), Nat.sub_add_cancel entry, fun k slot => ?target,
    .of_parts rfl rfl fun p unlisted => ?frame, fun _ => rfl⟩
  case target =>
    obtain ⟨k, bound⟩ := k
    cases slot
    rfl
  case frame => cases p <;> simp_all [Part.Same]

/-- Settles O15: both checks fail before anything is written. -/
theorem stackFaultsWriteNothing : Obligations.StackFaultsWriteNothing :=
  ⟨fun nnn _ full => ⟨encode (.call nnn), formA_toNat 0x2 nnn, exec_call_full (Fin.ext full)⟩,
    fun _ empty => exec_ret_empty (Fin.ext empty)⟩

/-- Settles O16: the slot the return reads is the one the call wrote (O13, O14). -/
theorem callThenReturnGoesOnAfterTheCall : Obligations.CallThenReturnGoesOnAfterTheCall := by
  intro nnn s t u room called sameSp sameStack
  obtain ⟨t', called', -, countedUp, slots, -, -⟩ := callPushesTheReturnAddress nnn s room
  obtain rfl : t = t' := Host.Outcome.next.inj (called.symm.trans called')
  obtain ⟨r, returned, countedDown, target, frame, -⟩ := returnPopsIntoThePc u (by rw [sameSp]; omega)
  have sp : r.sp.val = s.sp.val := by rw [sameSp] at countedDown; omega
  refine ⟨r, returned, ?pc, Fin.ext sp, (frame.parts_same .stack (by decide)).trans sameStack⟩
  case pc => rw [target ⟨s.sp.val, room⟩ sp.symm, sameStack, slots, if_pos rfl]

/-- Settles O19: the meaning is the advance. -/
theorem nopOnlyAdvancesThePc : Obligations.NopOnlyAdvancesThePc :=
  fun w _ => .of_exec (i := .nop w) rfl rfl (fun _ => rfl) trivial

end Sys2Proof.Machine
end

section
/-! Obligations O25 and O27: the random byte, the sum in the index register and the glyph address (42_alu.md R221;
43_index_memory.md R251, R252). -/

namespace Sys2Proof.Machine

theorem indexSum_toNat (i : Word) (b : Byte) : (indexSum i b).toNat = (i.toNat + b.toNat) % 65536 := by
  rw [indexSum, BitVec.toNat_add, BitVec.toNat_setWidth_of_le (by decide)]

theorem glyphAddress_toNat (b : Byte) : (glyphAddress b).toNat = b.toNat * 5 := by
  have byte := b.isLt
  rw [glyphAddress, BitVec.toNat_ofNat, Nat.mod_eq_of_lt (by omega)]

/-- Settles O25: the write-back of an operation without a flag, on the free byte. -/
theorem randomByteIsMasked : Obligations.RandomByteIsMasked := by
  intro x nn s
  have written : (({ s.advance with draws := s.draws + 1 } : State).setReg x (Config.randomByte s.draws &&& nn)).reg x =
      Config.randomByte s.draws &&& nn := by rw [State.reg_setReg, if_pos rfl]
  refine .of_exec (i := .rnd x nn) rfl rfl (fun _ => rfl) ⟨written, fun k clear => ?masked, rfl⟩
  case masked => exact (congrArg (·.getLsbD k) written).trans (by rw [BitVec.getLsbD_and, clear, Bool.and_false])

/-- Settles O27: both meanings write I alone. -/
theorem indexSumAndGlyphAddress : Obligations.IndexSumAndGlyphAddress := fun x s =>
  ⟨.of_exec (i := .addIVx x) rfl rfl (fun _ => rfl) (indexSum_toNat s.i (s.reg x)),
    .of_exec (i := .ldFVx x) rfl rfl (fun _ => rfl) (glyphAddress_toNat (s.reg x))⟩

end Sys2Proof.Machine
end

section
/-! Obligations O31, O32 and O33: what was stored is loaded and fetched again, and memory is known by its reads
(20_memory.md R70, R81, R83). -/

namespace Sys2Proof.Machine

section
variable {s t u : State}

/-- A byte of memory depends on the font and the cells alone. -/
theorem State.readByte_congr (mem : u.mem = t.mem) (params : u.params = t.params) (a : Nat) :
    u.readByte a = t.readByte a := by
  rw [State.readByte, State.readByte, mem, params]

/-- Where FX55 stored, V[k] stands at I + k, in every state with that memory (O29). -/
theorem readByte_of_stored {x : RegIdx} (memWf : s.MemWf) (inMemory : s.effAddr x.val < 4096)
    (stored : exec (.ldMemVx x) s = .next t) (mem : u.mem = t.mem) (params : u.params = t.params) {k : RegIdx}
    (hk : k ≤ x) : u.readByte (s.effAddr k.val) = s.reg k := by
  obtain ⟨t', stored', -, -, -, bytes⟩ := (storeRegisterBlock.2 x s memWf).1 inMemory
  obtain rfl : t = t' := Host.Outcome.next.inj (stored.symm.trans stored')
  rw [State.readByte_congr mem params, bytes k hk]

end

section
variable {font : Font} {m m' : Memory}

/-- The canonical form of a memory with a lowest cell: that cell is not redundant, the rest is canonical and above it. -/
theorem Memory.wf_cons {c : Host.Cell} (h : Memory.wf font (c :: m)) :
    c.1 < Config.memSize ∧ c.2 ≠ Memory.unlisted font c.1 ∧ Memory.Above c.1 m ∧ Memory.wf font m := by
  obtain ⟨sorted, cells⟩ := h
  obtain ⟨inMemory, listed⟩ := cells c List.mem_cons_self
  exact ⟨inMemory, listed, Memory.above_tail sorted, sorted.of_cons, fun d hd => cells d (List.mem_cons_of_mem _ hd)⟩

theorem Memory.read_cons_self (k : Nat) (b : Byte) : Memory.read font ((k, b) :: m) k = b := by
  rw [Memory.read, if_pos rfl]

theorem Memory.read_cons_of_ne {k a : Nat} {b : Byte} (h : k ≠ a) :
    Memory.read font ((k, b) :: m) a = Memory.read font m a := by
  rw [Memory.read, if_neg h]

/-- A memory that reads as another at its lowest cell has that address listed: it is not all above it. -/
theorem Memory.not_above_of_read_eq {k : Nat} {b : Byte} (h : Memory.wf font ((k, b) :: m))
    (reads : ∀ a < 4096, Memory.read font ((k, b) :: m) a = Memory.read font m' a) : ¬ Memory.Above k m' := by
  intro above
  obtain ⟨inMemory, listed, -⟩ := Memory.wf_cons h
  have read := reads k inMemory
  rw [Memory.read_cons_self, Memory.read_of_above above] at read
  exact listed read

/-- Cells above the lowest cell of a sorted memory are above every lower address. -/
theorem Memory.above_of_lt {k k' : Nat} {b : Byte} (lt : k < k') (above : Memory.Above k' m) :
    Memory.Above k ((k', b) :: m) :=
  List.forall_mem_cons.mpr ⟨lt, fun c hc => lt.trans (above c hc)⟩

theorem Memory.eq_of_read_eq (h : Memory.wf font m) (h' : Memory.wf font m')
    (reads : ∀ a < 4096, Memory.read font m a = Memory.read font m' a) : m = m' := by
  induction m generalizing m' with
  | nil =>
    cases m' with
    | nil => rfl
    | cons c' m' => exact absurd nofun (Memory.not_above_of_read_eq h' fun a ha => (reads a ha).symm)
  | cons c m ih =>
    obtain ⟨k, b⟩ := c
    obtain ⟨-, -, above, wf⟩ := Memory.wf_cons h
    cases m' with
    | nil => exact absurd nofun (Memory.not_above_of_read_eq h reads)
    | cons c' m' =>
      obtain ⟨k', b'⟩ := c'
      obtain ⟨inMemory, -, above', wf'⟩ := Memory.wf_cons h'
      have reads' := fun a ha => (reads a ha).symm
      rcases Nat.lt_trichotomy k k' with lt | rfl | gt
      · exact absurd (Memory.above_of_lt lt above') (Memory.not_above_of_read_eq h reads)
      · have bytes : b = b' := by simpa only [Memory.read_cons_self] using reads k inMemory
        have tails : m = m' := by
          refine ih wf wf' fun a ha => ?_
          by_cases same : k = a
          · subst same
            rw [Memory.read_of_above above, Memory.read_of_above above']
          · simpa only [Memory.read_cons_of_ne same] using reads a ha
        rw [bytes, tails]
      · exact absurd (Memory.above_of_lt gt above) (Memory.not_above_of_read_eq h' reads')

end

/-- Settles O31: the load reads, at the same addresses, the bytes the store left there (O29, O30). -/
theorem storedRegistersLoadBack : Obligations.StoredRegistersLoadBack := by
  intro x s t u memWf inMemory stored sameI mem params
  have keptI : t.i = s.i := (exec_frame stored).parts_same .index (by simp [partsWritten])
  have address (k : Nat) : u.effAddr k = s.effAddr k := by rw [State.effAddr, sameI, keptI, State.effAddr]
  obtain ⟨r, loaded, -, -, -, registers⟩ := (loadRegisterBlock.2 x u).1 (by rw [address]; exact inMemory)
  refine ⟨r, loaded, fun k hk => ?_⟩
  rw [registers k hk, address, readByte_of_stored memWf inMemory stored mem params hk]

/-- Settles O32: the bytes the fetch reads at I and I + 1 are V0 and V1. -/
theorem storedWordIsExecuted : Obligations.StoredWordIsExecuted := by
  intro x s t u w memWf two inMemory stored mem params run pc word
  have inRange : s.i.toNat + 1 < 4096 := Nat.lt_of_le_of_lt (Nat.add_le_add_left two _) inMemory
  have high : u.readByte s.i.toNat = s.reg 0 := readByte_of_stored memWf inMemory stored mem params (Fin.zero_le x)
  have low : u.readByte (s.i.toNat + 1) = s.reg 1 := readByte_of_stored memWf inMemory stored mem params (k := 1) two
  refine step_of_fetch run (State.fetch_of_toNat ?_ ?_) <;> rw [pc]
  · exact inRange
  · rw [high, low, word]

/-- Settles O33: by induction on both lists, whose lowest cells must be the same. -/
theorem canonicalMemoriesAreEqualWhenReadsAre : Obligations.CanonicalMemoriesAreEqualWhenReadsAre :=
  fun _ _ _ => Memory.eq_of_read_eq

end Sys2Proof.Machine
end

section
/-! Obligations O41, O42 and O43: the key skips and the key wait (45_timers_keypad.md R321, R322, R324). -/

namespace Sys2Proof.Machine

section
variable {x : RegIdx} {s : State}

theorem exec_skp_ok {k : Key} (h : (s.reg x).toNat = k.val) :
    exec (.skp x) s = .next (s.advance.skipIf (s.keyPressed k)) := by
  show complete _ _ _ = _
  rw [keyOfByte_ok h]; rfl

theorem exec_sknp_ok {k : Key} (h : (s.reg x).toNat = k.val) :
    exec (.sknp x) s = .next (s.advance.skipIf (!s.keyPressed k)) := by
  show complete _ _ _ = _
  rw [keyOfByte_ok h]; rfl

theorem exec_skp_error (h : 15 < (s.reg x).toNat) : exec (.skp x) s = .next (s.takeFault (some (encode (.skp x)))
    { code := .keyIndexOutOfRange, info := some ((s.reg x).setWidth 16) }) := by
  show complete _ _ _ = _
  rw [keyOfByte_error h]; rfl

theorem exec_sknp_error (h : 15 < (s.reg x).toNat) : exec (.sknp x) s = .next (s.takeFault (some (encode (.sknp x)))
    { code := .keyIndexOutOfRange, info := some ((s.reg x).setWidth 16) }) := by
  show complete _ _ _ = _
  rw [keyOfByte_error h]; rfl

end

/-- Settles O41: both meanings are the conditional skip on the key's level. -/
theorem keySkipsReadTheKeyLevel : Obligations.KeySkipsReadTheKeyLevel := fun _ _ _ key =>
  ⟨.of_skipIf (exec_skp_ok key) .rfl, .of_skipIf (exec_sknp_ok key) (by rw [Bool.not_eq_true'])⟩

/-- Settles O42: a byte over 15 names no key, and the step aborts. -/
theorem keyNumberOutOfRangeFaults : Obligations.KeyNumberOutOfRangeFaults := by
  intro x s high
  have word (nn : Byte) : (formXNN 0xE x nn).toNat = 0xE000 + nn.toNat + x.val * 256 := by
    rw [formXNN_toNat, Nat.add_right_comm]; rfl
  exact ⟨_, BitVec.toNat_setWidth_of_le (by decide), ⟨_, word 0x9E, exec_skp_error high⟩,
    ⟨_, word 0xA1, exec_sknp_error high⟩⟩

/-- Settles O43: the meaning writes the status alone. -/
theorem keyWaitSuspends : Obligations.KeyWaitSuspends :=
  fun x _ => .of_exec (i := .ldVxK x) rfl rfl (fun _ => rfl) rfl

end Sys2Proof.Machine
end

section
/-! Obligations O22, O23 and O24: the flagged ALU operations, off VF and on it, under either value of VF_ALIAS_MODE
(42_alu.md R201-R204, R216-R220; decisions D3, D24). -/

namespace Sys2Proof.Machine

/-! Bytes and flags as numbers. -/

theorem toNat_sub_byte (a b : Byte) : (a - b).toNat = (a.toNat + 256 - b.toNat) % 256 := by
  have bound := b.isLt
  rw [BitVec.toNat_sub]
  congr 1
  omega

theorem toNat_shiftRight_one (a : Byte) : (a >>> 1).toNat = a.toNat / 2 := BitVec.toNat_ushiftRight a 1

theorem toNat_shiftLeft_one (a : Byte) : (a <<< 1).toNat = a.toNat * 2 % 256 := by
  rw [BitVec.toNat_shiftLeft, Nat.shiftLeft_eq]

theorem getLsbD_zero_byte (a : Byte) : a.getLsbD 0 = decide (a.toNat % 2 = 1) := Nat.testBit_zero a.toNat

theorem getLsbD_seven_byte (a : Byte) : a.getLsbD 7 = decide (a.toNat ≥ 128) := by
  have bound := a.isLt
  have bit : a.getLsbD 7 = decide (a.toNat / 2 ^ 7 % 2 = 1) := Nat.testBit_eq_decide_div_mod_eq
  rw [bit]
  exact decide_eq_decide.mpr (by omega)

theorem flagIs_flagByte {c : Prop} {f : Bool} (h : f = true ↔ c) : FlagIs c (flagByte f) := by
  cases f with
  | true => exact ⟨fun _ => rfl, fun fails => absurd (h.mp rfl) fails⟩
  | false => exact ⟨fun holds => absurd (h.mpr holds) Bool.false_ne_true, fun _ => rfl⟩

theorem flagByte_toNat (c : Prop) [Decidable c] : (flagByte (decide c)).toNat = if c then 1 else 0 := by
  by_cases h : c
  · rw [decide_eq_true h, if_pos h]; rfl
  · rw [decide_eq_false h, if_neg h]; rfl

section
variable {s : State} {op : AluOp} {x y : RegIdx} {f : Bool} {regs : List RegIdx}

/-! The operands of a flag-first operation (R203, decision D3). -/

/-- The byte the second statement of a flag-first operation reads from register k, when the first wrote flag f. -/
def State.operandAfterFlag (s : State) (f : Bool) (k : RegIdx) : Byte :=
  if k = 15 ∧ s.params.vfAliasMode = .sequential then flagByte f else s.reg k

theorem State.operandAfterFlag_of_ne (h : x ≠ 15) : s.operandAfterFlag f x = s.reg x :=
  if_neg fun both => h both.1

theorem State.operandAfterFlag_snapshot (mode : s.params.vfAliasMode = .snapshot) :
    s.operandAfterFlag f x = s.reg x :=
  if_neg fun both => by rw [mode] at both; exact nomatch both.2

theorem State.operandAfterFlag_sequential (mode : s.params.vfAliasMode = .sequential) :
    s.operandAfterFlag f 15 = flagByte f :=
  if_pos ⟨rfl, mode⟩

/-- The result of a flag-first operation, in those operands. -/
theorem State.result_aluFlagFirst (flag : aluFlag op (s.reg x) (s.reg y) = some f) :
    (s.aluFlagFirst op x y).reg x = aluResult op (s.operandAfterFlag f x) (s.operandAfterFlag f y) 0 := by
  rw [State.reg_aluFlagFirst s op x y flag, if_pos rfl]
  simp only [State.operandAfterFlag]
  cases s.params.vfAliasMode with
  | sequential => simp only [and_true]; rfl
  | snapshot => simp only [reduceCtorEq, and_false, if_false]

/-- The flag of a flag-first operation whose result goes to another register. -/
theorem State.flag_aluFlagFirst (flag : aluFlag op (s.reg x) (s.reg y) = some f) (h : x ≠ 15) :
    (s.aluFlagFirst op x y).reg 15 = flagByte f := by
  rw [State.reg_aluFlagFirst s op x y flag, if_neg h.symm]; rfl

/-! Each operation completes with its result, and its flag where the result is not in VF. -/

theorem Completes.imp {i : Instr} {parts : List Part} {P Q : State → Prop} (h : Completes i s regs parts P)
    (weaken : ∀ t, P t → Q t) : Completes i s regs parts Q := by
  obtain ⟨t, run, pc, frame, mem, result⟩ := h
  exact ⟨t, run, pc, frame, mem, weaken t result⟩

/-- An instruction whose meaning is a flag-first write-back completes, writing V[x] and VF. -/
theorem Completes.of_aluFlagFirst {i : Instr} {c : Prop} [Decidable c]
    (run : exec i s = .next (s.advance.aluFlagFirst op x y)) (hx : x ∈ regs) (hvf : 15 ∈ regs)
    (flag : aluFlag op (s.reg x) (s.reg y) = some (decide c)) :
    Completes i s regs [] fun t =>
      t.reg x = aluResult op (s.operandAfterFlag (decide c) x) (s.operandAfterFlag (decide c) y) 0 ∧
      (x ≠ 15 → FlagIs c (t.reg 15)) := by
  refine ⟨_, run, ?pc, (Frame.advance regs [] s).aluFlagFirst hx hvf, fun a => ?mem, ?result, fun h => ?flag⟩
  case pc => rw [State.aluFlagFirst_eq]; rfl
  case mem => rw [State.aluFlagFirst_eq]; rfl
  case result => exact State.result_aluFlagFirst (s := s.advance) flag
  case flag =>
    rw [State.flag_aluFlagFirst (s := s.advance) flag h]
    exact flagIs_flagByte decide_eq_true_iff

theorem completes_sub (hx : x ∈ regs := by simp) (hvf : 15 ∈ regs := by simp) :
    Completes (.sub x y) s regs [] fun t =>
      (t.reg x).toNat = ((s.operandAfterFlag (decide ((s.reg x).toNat > (s.reg y).toNat)) x).toNat + 256 -
        (s.operandAfterFlag (decide ((s.reg x).toNat > (s.reg y).toNat)) y).toNat) % 256 ∧
      (x ≠ 15 → FlagIs ((s.reg x).toNat > (s.reg y).toNat) (t.reg 15)) :=
  (Completes.of_aluFlagFirst rfl hx hvf rfl).imp fun _ ⟨result, flag⟩ =>
    ⟨(congrArg BitVec.toNat result).trans (toNat_sub_byte _ _), flag⟩

theorem completes_subn (hx : x ∈ regs := by simp) (hvf : 15 ∈ regs := by simp) :
    Completes (.subn x y) s regs [] fun t =>
      (t.reg x).toNat = ((s.operandAfterFlag (decide ((s.reg y).toNat > (s.reg x).toNat)) y).toNat + 256 -
        (s.operandAfterFlag (decide ((s.reg y).toNat > (s.reg x).toNat)) x).toNat) % 256 ∧
      (x ≠ 15 → FlagIs ((s.reg y).toNat > (s.reg x).toNat) (t.reg 15)) :=
  (Completes.of_aluFlagFirst rfl hx hvf rfl).imp fun _ ⟨result, flag⟩ =>
    ⟨(congrArg BitVec.toNat result).trans (toNat_sub_byte _ _), flag⟩

theorem completes_shr (hx : x ∈ regs := by simp) (hvf : 15 ∈ regs := by simp) :
    Completes (.shr x y) s regs [] fun t =>
      (t.reg x).toNat = (s.operandAfterFlag (decide ((s.reg x).toNat % 2 = 1)) x).toNat / 2 ∧
      (x ≠ 15 → FlagIs ((s.reg x).toNat % 2 = 1) (t.reg 15)) :=
  (Completes.of_aluFlagFirst (op := .shr) (y := x) rfl hx hvf (congrArg some (getLsbD_zero_byte _))).imp
    fun _ ⟨result, flag⟩ => ⟨(congrArg BitVec.toNat result).trans (toNat_shiftRight_one _), flag⟩

theorem completes_shl (hx : x ∈ regs := by simp) (hvf : 15 ∈ regs := by simp) :
    Completes (.shl x y) s regs [] fun t =>
      (t.reg x).toNat = (s.operandAfterFlag (decide ((s.reg x).toNat ≥ 128)) x).toNat * 2 % 256 ∧
      (x ≠ 15 → FlagIs ((s.reg x).toNat ≥ 128) (t.reg 15)) :=
  (Completes.of_aluFlagFirst (op := .shl) (y := x) rfl hx hvf (congrArg some (getLsbD_seven_byte _))).imp
    fun _ ⟨result, flag⟩ => ⟨(congrArg BitVec.toNat result).trans (toNat_shiftLeft_one _), flag⟩

/-- 8XY4 writes its result first, so the carry stands in VF whatever register the sum went to. -/
theorem completes_addVxVy (hx : x ∈ regs := by simp) (hvf : 15 ∈ regs := by simp) :
    Completes (.addVxVy x y) s regs [] fun t =>
      (x ≠ 15 → (t.reg x).toNat = ((s.reg x).toNat + (s.reg y).toNat) % 256) ∧
      FlagIs ((s.reg x).toNat + (s.reg y).toNat > 255) (t.reg 15) := by
  refine ⟨_, rfl, rfl, (Frame.advance regs [] s).aluResultFirst hx (.inr hvf), fun _ => rfl, fun h => ?sum, ?carry⟩
  case sum =>
    have notVf : x ≠ vf := h
    rw [State.reg_aluResultFirst, if_neg notVf, if_pos rfl]
    exact BitVec.toNat_add (s.reg x) (s.reg y)
  case carry =>
    rw [State.reg_aluResultFirst]
    exact flagIs_flagByte decide_eq_true_iff

end

/-- Settles O22: off VF the second statement reads its operands as they were, in both modes. -/
theorem flaggedOperationsOffVf : Obligations.FlaggedOperationsOffVf := by
  refine ⟨fun x y s hx hy => ⟨?add, ?sub, ?subn⟩, fun x y s hx => ⟨?shr, ?shl⟩⟩
  case add => exact .imp completes_addVxVy fun t ⟨sum, carry⟩ => ⟨sum hx, carry⟩
  case sub =>
    refine .imp completes_sub fun t ⟨result, flag⟩ => ⟨?_, flag hx⟩
    rw [result, State.operandAfterFlag_of_ne hx, State.operandAfterFlag_of_ne hy]
  case subn =>
    refine .imp completes_subn fun t ⟨result, flag⟩ => ⟨?_, flag hx⟩
    rw [result, State.operandAfterFlag_of_ne hx, State.operandAfterFlag_of_ne hy]
  case shr =>
    refine .imp completes_shr fun t ⟨result, flag⟩ => ⟨?_, flag hx⟩
    rw [result, State.operandAfterFlag_of_ne hx]
  case shl =>
    refine .imp completes_shl fun t ⟨result, flag⟩ => ⟨?_, flag hx⟩
    rw [result, State.operandAfterFlag_of_ne hx]

/-- Settles O23: under SEQUENTIAL an operand in VF is the flag the first statement wrote. -/
theorem vfOperandsSequential : Obligations.VfOperandsSequential := by
  intro s mode
  have flagIn (f : Bool) : s.operandAfterFlag f 15 = flagByte f := State.operandAfterFlag_sequential mode
  refine ⟨fun y hy => ⟨?addVfY, ?subVfY, ?subnVfY⟩, fun x hx => ⟨?addXVf, ?subXVf, ?subnXVf⟩, ?addVfVf, ?subVfVf,
    ?subnVfVf, fun y => ⟨?shrVf, ?shlVf⟩⟩
  case addVfY => exact .imp completes_addVxVy fun t h => h.2
  case subVfY =>
    refine .imp completes_sub fun t ⟨result, _⟩ => ?_
    rw [result, flagIn, State.operandAfterFlag_of_ne hy, flagByte_toNat]
  case subnVfY =>
    refine .imp completes_subn fun t ⟨result, _⟩ => ?_
    rw [result, flagIn, State.operandAfterFlag_of_ne hy, flagByte_toNat]
  case addXVf => exact .imp completes_addVxVy fun t ⟨sum, carry⟩ => ⟨sum hx, carry⟩
  case subXVf =>
    refine .imp completes_sub fun t ⟨result, flag⟩ => ⟨?_, flag hx⟩
    rw [result, flagIn, State.operandAfterFlag_of_ne hx, flagByte_toNat]
  case subnXVf =>
    refine .imp completes_subn fun t ⟨result, flag⟩ => ⟨?_, flag hx⟩
    rw [result, flagIn, State.operandAfterFlag_of_ne hx, flagByte_toNat]
  case addVfVf =>
    refine .imp completes_addVxVy fun t ⟨_, carry⟩ => ?_
    rw [Nat.two_mul]
    exact carry
  case subVfVf =>
    refine .imp completes_sub fun t ⟨result, _⟩ => BitVec.eq_of_toNat_eq ?_
    rw [result, Nat.add_sub_cancel_left]; rfl
  case subnVfVf =>
    refine .imp completes_subn fun t ⟨result, _⟩ => BitVec.eq_of_toNat_eq ?_
    rw [result, Nat.add_sub_cancel_left]; rfl
  case shrVf =>
    refine .imp completes_shr fun t ⟨result, _⟩ => BitVec.eq_of_toNat_eq ?_
    rw [result, flagIn, flagByte_toNat]
    split <;> rfl
  case shlVf =>
    refine .imp completes_shl fun t ⟨result, _⟩ => ?_
    rw [result, flagIn, flagByte_toNat]
    split <;> rfl

/-- Settles O24: under SNAPSHOT every operand is the register as it was. -/
theorem vfOperandsSnapshot : Obligations.VfOperandsSnapshot := by
  intro s mode
  have asBefore (f : Bool) (k : RegIdx) : s.operandAfterFlag f k = s.reg k := State.operandAfterFlag_snapshot mode
  refine ⟨fun y => ⟨?addVf, ?subVf, ?subnVf, ?shrVf, ?shlVf⟩, fun x hx => ⟨?add, ?sub, ?subn⟩⟩
  case addVf => exact .imp completes_addVxVy fun t h => h.2
  case subVf => exact .imp completes_sub fun t h => by rw [h.1, asBefore, asBefore]
  case subnVf => exact .imp completes_subn fun t h => by rw [h.1, asBefore, asBefore]
  case shrVf => exact .imp completes_shr fun t h => by rw [h.1, asBefore]
  case shlVf => exact .imp completes_shl fun t h => by rw [h.1, asBefore]
  case add => exact .imp completes_addVxVy fun t ⟨sum, carry⟩ => ⟨sum hx, carry⟩
  case sub =>
    exact .imp completes_sub fun t ⟨result, flag⟩ => ⟨by rw [result, asBefore, asBefore], flag hx⟩
  case subn =>
    exact .imp completes_subn fun t ⟨result, flag⟩ => ⟨by rw [result, asBefore, asBefore], flag hx⟩

end Sys2Proof.Machine
end

section
/-! Obligations O35, O36 and O38: drawing a sprite (44_display.md R292-R299). -/

namespace Sys2Proof.Machine

section
variable {s : State} {x y : RegIdx} {n : Nibble}

/-- Where a sprite pixel lands, as numbers (R293). -/
theorem lands_iff {x0 y0 : Byte} {r col : Nat} {px : Fin 64} {py : Fin 32} :
    px = blitColumn x0 col ∧ py = blitRow y0 r ↔
      px.val = (x0.toNat + col) % 64 ∧ py.val = (y0.toNat + r) % 32 := by
  simp only [Fin.ext_iff]; rfl

/-- A pixel sprite bit (r, col) lands on is flipped by that bit alone. -/
theorem pixel_blit_hit (s : State) (x0 y0 : Byte) (n : Nibble) {r col : Nat} (hr : r < n.toNat) (hcol : col < 8) :
    (blit s.fb x0 y0 (s.spriteRows n.toNat)).fb.pixel (blitColumn x0 col) (blitRow y0 r) =
      (s.fb.pixel (blitColumn x0 col) (blitRow y0 r) ^^ s.spriteBit r col) := by
  have length := s.spriteRows_length n.toNat
  have atMost15 := n.isLt
  rw [blit, Blit.pixel_rows_hit x0 y0 _ 0 _ r col (Nat.zero_le r) (by omega) (by omega) hcol,
    State.spriteRows_getElem]
  rfl

/-- A pixel no sprite bit lands on is kept. -/
theorem pixel_blit_miss (s : State) (x0 y0 : Byte) (n : Nibble) {px : Fin 64} {py : Fin 32}
    (miss : ∀ r col : Nat, r < n.toNat → col < 8 → ¬(px = blitColumn x0 col ∧ py = blitRow y0 r)) :
    (blit s.fb x0 y0 (s.spriteRows n.toNat)).fb.pixel px py = s.fb.pixel px py := by
  rw [blit, Blit.pixel_rows_miss x0 y0 _ 0 _ px py fun r col _ hr hcol => miss r col ?_ hcol]
  have length := s.spriteRows_length n.toNat
  omega

/-- The collision is a set sprite bit over a pixel that was set. -/
theorem c_blit_iff (s : State) (x0 y0 : Byte) (n : Nibble) :
    (blit s.fb x0 y0 (s.spriteRows n.toNat)).c = true ↔
      ∃ r col : Nat, r < n.toNat ∧ col < 8 ∧ s.spriteBit r col = true ∧ s.pixelUnder x0 y0 r col = true := by
  have length := s.spriteRows_length n.toNat
  have atMost15 := n.isLt
  rw [blit, Blit.c_rows x0 y0 _ 0 _ (by omega)]
  simp only [State.spriteRows_getElem, length, Nat.zero_add, Bool.false_eq_true, false_or]
  constructor
  · rintro ⟨r, hr, col, hcol, bit, under⟩
    exact ⟨r, col, hr, hcol, bit, under⟩
  · rintro ⟨r, col, hr, hcol, bit, under⟩
    exact ⟨r, hr, col, hcol, bit, under⟩

end

/-- Settles O35: a pixel is under at most one sprite bit, which flips it. -/
theorem drawFlipsTheSpritePixels : Obligations.DrawFlipsTheSpritePixels := by
  intro x y n s inMemory
  refine ⟨_, exec_drw_ok inMemory, rfl, ?frame, fun _ => rfl, fun r col px py hr hcol column row => ?hit,
    fun px py miss => ?miss⟩
  case frame =>
    have drawn (fb : Framebuffer) : Frame [15] [.fb] s { s.advance with fb := fb } :=
      .of_parts rfl rfl fun p unlisted => by cases p <;> simp_all [Part.Same]
    exact (drawn _).setReg (List.mem_singleton_self vf) _
  case hit =>
    obtain ⟨rfl, rfl⟩ := lands_iff.mpr ⟨column, row⟩
    exact pixel_blit_hit s _ _ n hr hcol
  case miss => exact pixel_blit_miss s _ _ n fun r col hr hcol lands => miss r col hr hcol (lands_iff.mp lands)

/-- Settles O36: VF is written last, with the blitter's collision. -/
theorem drawReportsTheCollision : Obligations.DrawReportsTheCollision := by
  intro x y n s inMemory
  refine ⟨_, exec_drw_ok inMemory, ?_⟩
  rw [State.reg_setReg, if_pos (show 15 = vf from rfl)]
  exact flagIs_flagByte (c_blit_iff s _ _ n)

/-- Settles O38: the second draw meets the same sprite at the same place, so it flips the same pixels back (O35), and it
reports a collision as every draw does (O36). -/
theorem drawingTwiceRestoresTheScreen : Obligations.DrawingTwiceRestoresTheScreen := by
  intro x y n s t hx hy inMemory drawn
  obtain ⟨t', drawn', -, frame, mem, hit, miss⟩ := drawFlipsTheSpritePixels x y n s inMemory
  obtain rfl : t = t' := Host.Outcome.next.inj (drawn.symm.trans drawn')
  have sameX : t.reg x = s.reg x := frame.regs_same x (by simpa using hx)
  have sameY : t.reg y = s.reg y := frame.regs_same y (by simpa using hy)
  have sameI : t.i = s.i := frame.parts_same .index (by decide)
  have sameBit (r col : Nat) : t.spriteBit r col = s.spriteBit r col := by
    rw [State.spriteBit, sameI, mem, State.spriteBit]
  have inMemory' : n.toNat = 0 ∨ t.effAddr n.toNat ≤ 4096 := by rwa [State.effAddr, sameI]
  obtain ⟨u, again, -, -, -, hit', miss'⟩ := drawFlipsTheSpritePixels x y n t inMemory'
  obtain ⟨u', again', collision⟩ := drawReportsTheCollision x y n t inMemory'
  obtain rfl : u = u' := Host.Outcome.next.inj (again.symm.trans again')
  simp only [sameX, sameY, sameBit] at hit' miss' collision
  refine ⟨u, again, Framebuffer.ext_pixel fun px py => ?restored, collision⟩
  case restored =>
    by_cases lands : ∃ r col : Nat, r < n.toNat ∧ col < 8 ∧
        px.val = ((s.reg x).toNat + col) % 64 ∧ py.val = ((s.reg y).toNat + r) % 32
    · obtain ⟨r, col, hr, hcol, column, row⟩ := lands
      rw [hit' r col px py hr hcol column row, hit r col px py hr hcol column row, Bool.xor_assoc, Bool.xor_self,
        Bool.xor_false]
    · have missed : ∀ r col : Nat, r < n.toNat → col < 8 →
          ¬(px.val = ((s.reg x).toNat + col) % 64 ∧ py.val = ((s.reg y).toNat + r) % 32) :=
        fun r col hr hcol both => lands ⟨r, col, hr, hcol, both⟩
      rw [miss' px py missed, miss px py missed]

end Sys2Proof.Machine
end

section
/-! Obligations O44 to O49: the host's ports (45_timers_keypad.md R327-R329; 60_exceptions.md R356, R365, R382, R392;
70_reset_and_hazards.md R400). -/

namespace Sys2Proof.Machine

section
variable {s t : State} {k : Key} {x : RegIdx}

/-! The ports that look at the status, an equation for each case of it. -/

theorem portTick_of_run (run : s.status = .run) : portTick s = { s with dt := tickTimer s.dt, st := tickTimer s.st } := by
  rw [portTick, run]

theorem portTick_of_not_run (notRun : s.status ≠ .run) : portTick s = s := by
  rw [portTick]
  split
  · contradiction
  · rfl
  · rfl

theorem portKeyDown_of_run (run : s.status = .run) : portKeyDown k s = { s with keys := s.keys.set k true } := by
  rw [portKeyDown, run]

theorem portKeyDown_of_waitKey (waits : s.status = .waitKey x) : portKeyDown k s =
    { s with keys := s.keys.set k true, status := .run }.setReg x (BitVec.ofNat 8 k.val) := by
  rw [portKeyDown, waits]

theorem portKeyDown_of_fault {r : FaultRecord} (fault : s.status = .fault r) : portKeyDown k s = s := by
  simp only [portKeyDown, fault]

theorem portKeyUp_of_not_fault (notFault : ∀ r, s.status ≠ .fault r) :
    portKeyUp k s = { s with keys := s.keys.set k false } := by
  rw [portKeyUp]
  split
  · rfl
  · rfl
  · exact absurd ‹_› (notFault _)

theorem portKeyUp_of_fault {r : FaultRecord} (fault : s.status = .fault r) : portKeyUp k s = s := by
  simp only [portKeyUp, fault]

theorem portLoad_of_fault {r : FaultRecord} (fault : s.status = .fault r) (img : List Byte) :
    portLoad img s = .next s := by
  simp only [portLoad, fault]

theorem portLoad_of_not_fault (notFault : ∀ r, s.status ≠ .fault r) (img : List Byte) :
    portLoad img s = if img.length > Config.maxImage then .refused .imageTooLarge
      else .next { s.writeBytes Config.progStart img with pc := BitVec.ofNat 16 Config.progStart } := by
  rw [portLoad]
  split
  · exact absurd ‹_› (notFault _)
  · rfl
  · rfl

/-! What the ports do to the status. -/

@[simp] theorem portTick_status (s : State) : (portTick s).status = s.status := by
  rw [portTick]; split <;> rfl

@[simp] theorem portKeyUp_status (k : Key) (s : State) : (portKeyUp k s).status = s.status := by
  rw [portKeyUp]; split <;> rfl

theorem portLoad_status {img : List Byte} (h : portLoad img s = .next t) : t.status = s.status := by
  rcases portLoad_cases h with ⟨-, rfl⟩ | ⟨-, -, rfl⟩
  · rfl
  · rw [State.writeBytes_eq]

/-- No key-down leaves a wait: it is what ends one. -/
theorem portKeyDown_status_ne_waitKey (k : Key) (s : State) (x : RegIdx) : (portKeyDown k s).status ≠ .waitKey x := by
  rw [portKeyDown]
  split
  case h_1 run => simp [run]
  case h_2 => simp
  case h_3 fault => simp [fault]

/-- Only FX0A enters a wait, and it waits for its own register. -/
theorem step_waits (h : step s = .next t) (waits : t.status = .waitKey x) :
    s.status = .waitKey x ∨ s.status = .run ∧ ∃ w, s.fetch = .ok w ∧ decodeWord w = .ldVxK x := by
  by_cases run : s.status = .run
  · rcases step_run_cases run h with ⟨w, fetched, executed⟩ | ⟨e, -, rfl⟩
    · rcases exec_status_cases executed with kept | ⟨x', isWait, waits'⟩ | ⟨e, rfl, -⟩
      · exact .inl (kept.symm.trans waits)
      · cases waits.symm.trans waits'
        exact .inr ⟨run, w, fetched, isWait⟩
      · cases waits
    · cases waits
  · rw [step_of_not_run run] at h
    cases h
    exact .inl waits

/-! Keys and timers. -/

/-- The level of a key after one key's level was set. -/
theorem keyPressed_of_set {b : Bool} (keys : t.keys = s.keys.set k b) (j : Key) :
    t.keyPressed j = if j = k then b else s.keyPressed j := by
  simp only [State.keyPressed, keys, Fin.getElem_fin, Vector.getElem_set, Fin.ext_iff, eq_comm (a := k.val)]

theorem keyPressed_of_set_true (keys : t.keys = s.keys.set k true) (j : Key) :
    t.keyPressed j = (decide (j = k) || s.keyPressed j) := by
  rw [keyPressed_of_set keys]
  split <;> simp_all

theorem keyPressed_of_set_false (keys : t.keys = s.keys.set k false) (j : Key) :
    t.keyPressed j = (!decide (j = k) && s.keyPressed j) := by
  rw [keyPressed_of_set keys]
  split <;> simp_all

/-- Setting the key levels keeps a frame that lists them. -/
theorem Frame.setKeys (s : State) (keys : Vector Bool 16) : Frame [] [.keys] s { s with keys := keys } :=
  .of_parts rfl rfl fun p unlisted => by cases p <;> simp_all [Part.Same]

theorem tickTimer_toNat (b : Byte) : (tickTimer b).toNat = b.toNat - 1 := by
  rw [tickTimer]
  split
  case isTrue zero => rw [zero]; rfl
  case isFalse nonzero =>
    have positive : b.toNat ≠ 0 := fun e => nonzero (BitVec.eq_of_toNat_eq e)
    have bound := b.isLt
    rw [toNat_sub_byte]
    show (b.toNat + 256 - 1) % 256 = b.toNat - 1
    omega

end

/-- Settles O44: by the status; only a wait has a register to write. -/
theorem keyEventsSetKeysAndEndAWait : Obligations.KeyEventsSetKeysAndEndAWait := by
  intro k s
  cases status : s.status with
  | run =>
    have notFault : ∀ r, s.status ≠ .fault r := by rw [status]; nofun
    exact ⟨⟨_, congrArg Host.Outcome.next (portKeyDown_of_run status), keyPressed_of_set_true rfl, rfl, .setKeys s _,
        fun _ => rfl⟩,
      ⟨_, congrArg Host.Outcome.next (portKeyUp_of_not_fault notFault), keyPressed_of_set_false rfl, rfl, .setKeys s _,
        fun _ => rfl⟩⟩
  | waitKey x =>
    have notFault : ∀ r, s.status ≠ .fault r := by rw [status]; nofun
    refine ⟨⟨_, congrArg Host.Outcome.next (portKeyDown_of_waitKey status), keyPressed_of_set_true rfl, ?number, rfl,
        rfl, ?frame, fun _ => rfl⟩,
      ⟨_, congrArg Host.Outcome.next (portKeyUp_of_not_fault notFault), keyPressed_of_set_false rfl, rfl, .setKeys s _,
        fun _ => rfl⟩⟩
    case number =>
      have bound := k.isLt
      rw [State.reg_setReg, if_pos rfl, BitVec.toNat_ofNat, Nat.mod_eq_of_lt (by omega)]
    case frame =>
      have resumed : Frame [x] [.keys, .status] s { s with keys := s.keys.set k true, status := .run } :=
        .of_parts rfl rfl fun p unlisted => by cases p <;> simp_all [Part.Same]
      exact resumed.setReg (List.mem_singleton_self x) _
  | fault r =>
    exact ⟨⟨_, congrArg Host.Outcome.next (portKeyDown_of_fault status), rfl⟩,
      ⟨_, congrArg Host.Outcome.next (portKeyUp_of_fault status), rfl⟩⟩

/-- Settles O45: each timer goes down by one and stops at zero. -/
theorem tickDecrementsTheTimers : Obligations.TickDecrementsTheTimers := by
  refine fun s => ⟨fun run => ?ticks, fun notRun => congrArg Host.Outcome.next (portTick_of_not_run notRun)⟩
  case ticks =>
    refine ⟨_, congrArg Host.Outcome.next (portTick_of_run run), tickTimer_toNat s.dt, tickTimer_toNat s.st, rfl,
      .of_parts rfl rfl fun p unlisted => ?_, fun _ => rfl⟩
    cases p <;> simp_all [Part.Same]

/-- Settles O46: the status a transaction leaves, port by port; of the step, by what exec does to it. -/
theorem onlyAKeyDownOrResetEndsAWait : Obligations.OnlyAKeyDownOrResetEndsAWait := by
  refine ⟨fun a s t x h waits => ?enters, fun a s t x waits h ends => ?leaves, fun s x waits => ?stays⟩
  case enters =>
    cases a with
    | reset => cases h; cases waits
    | load img => exact .inl ((portLoad_status h).symm.trans waits)
    | step => exact (step_waits h waits).imp id fun entered => ⟨rfl, entered⟩
    | tick => cases h; exact .inl ((portTick_status s).symm.trans waits)
    | keyDown k => cases h; exact absurd waits (portKeyDown_status_ne_waitKey k s x)
    | keyUp k => cases h; exact .inl ((portKeyUp_status k s).symm.trans waits)
  case leaves =>
    cases a with
    | reset => exact .inl rfl
    | keyDown k => exact .inr ⟨k, rfl⟩
    | load img => exact absurd ((portLoad_status h).trans waits) ends
    | step =>
      have unchanged : step s = .next s := step_of_not_run (by rw [waits]; nofun)
      cases h.symm.trans unchanged
      exact absurd waits ends
    | tick => cases h; exact absurd ((portTick_status s).trans waits) ends
    | keyUp k => cases h; exact absurd ((portKeyUp_status k s).trans waits) ends
  case stays =>
    have notRun : s.status ≠ .run := by rw [waits]; nofun
    exact ⟨step_of_not_run notRun, congrArg Host.Outcome.next (portTick_of_not_run notRun)⟩

/-- Settles O47: each port's case of FAULT. -/
theorem onlyResetLeavesAFault : Obligations.OnlyResetLeavesAFault := by
  refine fun s r fault => ⟨fun a notReset => ?kept, _, rfl, rfl⟩
  case kept =>
    have notRun : s.status ≠ .run := by rw [fault]; nofun
    cases a with
    | reset => exact absurd rfl notReset
    | load img => exact portLoad_of_fault fault img
    | step => exact step_of_not_run notRun
    | tick => exact congrArg Host.Outcome.next (portTick_of_not_run notRun)
    | keyDown k => exact congrArg Host.Outcome.next (portKeyDown_of_fault fault)
    | keyUp k => exact congrArg Host.Outcome.next (portKeyUp_of_fault fault)

/-- Settles O48: the image is one block of bytes at 0x200, and 3584 bytes are all there is room for. -/
theorem loadPlacesTheImage : Obligations.LoadPlacesTheImage := by
  refine fun img s memWf notFault => ⟨fun fits => ?placed, fun tooLong => ?refused⟩
  case placed =>
    have accepted : ¬ img.length > Config.maxImage := Nat.not_lt.mpr fits
    have inMemory : Config.progStart + img.length ≤ Config.memSize := Nat.add_le_add_left fits 0x200
    have read (a : Nat) := State.readByte_writeBytes (a := Config.progStart) memWf inMemory a
    refine ⟨_, (portLoad_of_not_fault notFault img).trans (if_neg accepted), rfl, ?frame, fun b outside => ?kept,
      fun k hk => ?image⟩
    case frame =>
      rw [State.writeBytes_eq]
      exact .of_parts rfl rfl fun p _ => by cases p <;> rfl
    case kept => exact (read b).trans (dif_neg fun inside => by simp only [Config.progStart] at inside; omega)
    case image =>
      refine (read (0x200 + k)).trans ((dif_pos ⟨Nat.le_add_right _ k, Nat.add_lt_add_left hk 0x200⟩).trans ?_)
      simp only [Config.progStart, Nat.add_sub_cancel_left]
  case refused => exact (portLoad_of_not_fault notFault img).trans (if_pos tooLong)

/-- Settles O49: memory after reset has no cell, so it reads as FONT and zeros. -/
theorem resetLeavesTheZeroState : Obligations.ResetLeavesTheZeroState := by
  refine fun s => ⟨portReset s, rfl, fun k => ?registers, rfl, rfl, rfl, fun k => ?slots, rfl, rfl,
    fun a inFont => dif_pos inFont, fun a above => dif_neg (Nat.not_lt.mpr above), Framebuffer.pixel_blank,
    fun k => ?keys, rfl, rfl⟩
  case registers => simp [portReset, State.reset, State.reg]
  case slots => simp [portReset, State.reset]
  case keys => simp [portReset, State.reset, State.keyPressed]

end Sys2Proof.Machine
end

section
/-! Obligations O51 and O52: what no instruction reads. The sound timer, and the stack outside calls and returns, can be
replaced before an instruction or after it (10_state.md R38, R48). -/

namespace Sys2Proof.Machine

/-- The state with another sound timer and another stack. -/
def State.withUnread (s : State) (st : Byte) (stack : Vector Word 16) : State := { s with st := st, stack := stack }

section
variable {i : Instr} {s t : State} {st : Byte} {stack : Vector Word 16}

/-! The operations of the meanings, on a state with its unread parts replaced. -/

@[simp] theorem State.reg_withUnread (k : RegIdx) : (s.withUnread st stack).reg k = s.reg k := rfl
@[simp] theorem State.keyPressed_withUnread (k : Key) : (s.withUnread st stack).keyPressed k = s.keyPressed k := rfl
@[simp] theorem State.memRead_withUnread (a n : Nat) : (s.withUnread st stack).memRead a n = s.memRead a n := rfl
@[simp] theorem State.effAddr_withUnread (k : Nat) : (s.withUnread st stack).effAddr k = s.effAddr k := rfl
@[simp] theorem State.advance_withUnread : (s.withUnread st stack).advance = s.advance.withUnread st stack := rfl

@[simp] theorem State.skipIf_withUnread (c : Bool) :
    (s.withUnread st stack).skipIf c = (s.skipIf c).withUnread st stack := by
  cases c <;> rfl

theorem State.aluFlagFirst_withUnread (op : AluOp) (x y : RegIdx) :
    (s.withUnread st stack).aluFlagFirst op x y = (s.aluFlagFirst op x y).withUnread st stack := by
  obtain ⟨v, i, pc, sp, _, dt, _, mem, fb, keys, status, ⟨font, mode⟩, draws⟩ := s
  simp only [State.aluFlagFirst, State.reg_withUnread]
  cases aluFlag op _ _ <;> cases mode <;> rfl

@[simp] theorem State.setRegs_withUnread (k : Nat) (bs : List Byte) :
    (s.withUnread st stack).setRegs k bs = (s.setRegs k bs).withUnread st stack := by
  induction bs generalizing s k with
  | nil => rfl
  | cons b bs ih => exact ih (s := s.setReg (Fin.ofNat 16 k) b) (k := k + 1)

theorem State.writeBytes_withUnread (a : Nat) (bs : List Byte) :
    (s.withUnread st stack).writeBytes a bs = (s.writeBytes a bs).withUnread st stack := by
  induction bs generalizing s a with
  | nil => rfl
  | cons b bs ih => exact ih (s := s.writeByte a b) (a := a + 1)

@[simp] theorem State.memWrite_withUnread (a : Nat) (bs : List Byte) :
    (s.withUnread st stack).memWrite a bs = (s.memWrite a bs).map (State.withUnread · st stack) := by
  rw [State.memWrite, State.memWrite]
  cases checkRange a bs.length with
  | ok => exact congrArg Except.ok (State.writeBytes_withUnread a bs)
  | error => rfl

/-- Committing and aborting, with the unread parts replaced. -/
theorem complete_withUnread {op : Word} {r r' : Except Raise State} (h : complete op s r = .next t)
    (same : r' = r.map (State.withUnread · st stack)) :
    complete op (s.withUnread st stack) r' = .next (t.withUnread st stack) := by
  rw [same]
  rcases complete_cases h with rfl | ⟨e, rfl, rfl⟩ <;> rfl

/-! The instructions. -/

/-- The instruction that writes ST. -/
theorem st_mem_partsWritten : .st ∈ partsWritten i ↔ ∃ x, i = .ldStVx x := by
  cases i <;> simp [partsWritten]

/-- The instructions that move SP. -/
theorem sp_mem_partsWritten : .sp ∈ partsWritten i ↔ i = .ret ∨ ∃ nnn, i = .call nnn := by
  cases i <;> simp [partsWritten]

/-- The instructions that write a slot move SP. -/
theorem sp_mem_of_stack_mem (h : .stack ∈ partsWritten i) : .sp ∈ partsWritten i := by
  cases i <;> simp_all [partsWritten]

/-- An instruction that writes neither ST nor the stack does not read them: replacing them before it or after it is the
same. -/
theorem exec_withUnread (h : exec i s = .next t) (noSt : .st ∉ partsWritten i) (noSp : .sp ∉ partsWritten i) :
    exec i (s.withUnread st stack) = .next (t.withUnread st stack) := by
  cases i
  case call | ret => exact absurd (by simp [partsWritten]) noSp
  case ldStVx => exact absurd (by simp [partsWritten]) noSt
  case seVxNn | sneVxNn | seVxVy | sneVxVy =>
    cases h
    exact congrArg Host.Outcome.next (State.skipIf_withUnread (s := s.advance) _)
  case sub | subn | shr | shl =>
    cases h
    exact congrArg Host.Outcome.next (State.aluFlagFirst_withUnread (s := s.advance) _ _ _)
  case skp x | sknp x =>
    refine complete_withUnread h ?_
    simp only [State.reg_withUnread, State.keyPressed_withUnread, State.advance_withUnread, State.skipIf_withUnread]
    cases keyOfByte (s.reg x) <;> rfl
  case drw x y n =>
    refine complete_withUnread h ?_
    simp only [State.advance_withUnread, State.memRead_withUnread, State.effAddr_withUnread]
    cases s.advance.memRead (s.effAddr 0) n.toNat <;> rfl
  case ldVxMem x =>
    refine complete_withUnread h ?_
    simp only [State.advance_withUnread, State.memRead_withUnread, State.effAddr_withUnread, State.setRegs_withUnread]
    cases s.advance.memRead (s.effAddr 0) (x.val + 1) <;> rfl
  case ldBVx x | ldMemVx x => exact complete_withUnread h (State.memWrite_withUnread (s := s.advance) _ _)
  all_goals cases h; rfl

end

/-! Calls and returns read the stack below SP alone, and every other instruction keeps it. -/

section
variable {i : Instr} {s s' t : State}

/-- A fault taken in two states that differ only in free slots leaves two such states. -/
theorem SameButFreeSlots.takeFault (same : SameButFreeSlots s s') (op : Option Word) (e : Raise) :
    SameButFreeSlots (s.takeFault op e) (s'.takeFault op e) := by
  obtain ⟨differ, below⟩ := same
  rw [differ]
  exact ⟨rfl, below⟩

theorem exec_call_freeSlots {nnn : Addr} (same : SameButFreeSlots s s') (h : exec (.call nnn) s = .next t) :
    ∃ t', exec (.call nnn) s' = .next t' ∧ SameButFreeSlots t t' := by
  have sameSp : s'.sp = s.sp := by rw [same.1]
  by_cases room : s.sp.val < 16
  · rw [exec_call_ok room] at h
    cases h
    refine ⟨_, exec_call_ok (by rw [sameSp]; exact room), ?_⟩
    obtain ⟨differ, below⟩ := same
    generalize s'.stack = stack at differ below
    subst differ
    refine ⟨rfl, fun k hk => ?slots⟩
    case slots =>
      have inUse : k.val < s.sp.val + 1 := hk
      show (stack.set s.sp.val (s.pc + 2) room)[k.val] = (s.stack.set s.sp.val (s.pc + 2) room)[k.val]
      simp only [Vector.getElem_set]
      split
      · rfl
      · exact below k (by omega)
  · have full : s.sp = 16 := Fin.ext (by omega)
    rw [exec_call_full full] at h
    cases h
    exact ⟨_, exec_call_full (sameSp.trans full), same.takeFault _ _⟩

theorem exec_ret_freeSlots (same : SameButFreeSlots s s') (h : exec .ret s = .next t) :
    ∃ t', exec .ret s' = .next t' ∧ SameButFreeSlots t t' := by
  have sameSp : s'.sp = s.sp := by rw [same.1]
  by_cases entry : s.sp.val ≠ 0
  · rw [exec_ret_ok entry] at h
    cases h
    refine ⟨_, exec_ret_ok (by rw [sameSp]; exact entry), ?_⟩
    obtain ⟨differ, below⟩ := same
    generalize s'.stack = stack at differ below
    subst differ
    have target : stack[s.sp.val - 1] = s.stack[s.sp.val - 1] :=
      below ⟨s.sp.val - 1, by omega⟩ (Nat.sub_one_lt entry)
    refine ⟨?rest, fun k hk => below k (Nat.lt_of_lt_of_le hk (Nat.sub_le _ 1))⟩
    case rest => simp only [target]
  · have empty : s.sp = 0 := Fin.ext (not_not.mp entry)
    rw [exec_ret_empty empty] at h
    cases h
    exact ⟨_, exec_ret_empty (sameSp.trans empty), same.takeFault _ _⟩

/-- An instruction that does not move SP reads no slot and writes none. -/
theorem exec_freeSlots_of_sp_kept (same : SameButFreeSlots s s') (h : exec i s = .next t)
    (noSp : .sp ∉ partsWritten i) : ∃ t', exec i s' = .next t' ∧ SameButFreeSlots t t' := by
  obtain ⟨differ, below⟩ := same
  have frame := exec_frame h
  have sp : t.sp = s.sp := frame.parts_same .sp noSp
  have stack : t.stack = s.stack := frame.parts_same .stack (mt sp_mem_of_stack_mem noSp)
  have slots : ∀ k : Fin 16, k.val < t.sp.val → s'.stack[k] = t.stack[k] := by rwa [sp, stack]
  refine ⟨{ t with stack := s'.stack }, ?_, rfl, slots⟩
  by_cases writesSt : .st ∈ partsWritten i
  · obtain ⟨x, rfl⟩ := st_mem_partsWritten.mp writesSt
    cases h
    rw [differ]; rfl
  · have st : t.st = s.st := frame.parts_same .st writesSt
    have replaced := exec_withUnread (st := s.st) (stack := s'.stack) h writesSt noSp
    have kept : t.withUnread s.st s'.stack = { t with stack := s'.stack } := by rw [← st]; rfl
    rw [kept] at replaced
    exact (congrArg (exec i) differ).trans replaced

theorem exec_freeSlots (same : SameButFreeSlots s s') (h : exec i s = .next t) :
    ∃ t', exec i s' = .next t' ∧ SameButFreeSlots t t' := by
  by_cases movesSp : .sp ∈ partsWritten i
  · rcases sp_mem_partsWritten.mp movesSp with rfl | ⟨nnn, rfl⟩
    · exact exec_ret_freeSlots same h
    · exact exec_call_freeSlots same h
  · exact exec_freeSlots_of_sp_kept same h movesSp

theorem SameButFreeSlots.fetch_eq (same : SameButFreeSlots s s') : s'.fetch = s.fetch := by
  rw [same.1]; rfl

theorem SameButFreeSlots.status_eq (same : SameButFreeSlots s s') : s'.status = s.status := by
  rw [same.1]

theorem step_freeSlots (same : SameButFreeSlots s s') (h : step s = .next t) :
    ∃ t', step s' = .next t' ∧ SameButFreeSlots t t' := by
  by_cases run : s.status = .run
  · have run' : s'.status = .run := same.status_eq.trans run
    rcases step_run_cases run h with ⟨w, fetched, executed⟩ | ⟨e, failed, rfl⟩
    · rw [step_of_fetch run' (same.fetch_eq.trans fetched)]
      exact exec_freeSlots same executed
    · exact ⟨_, step_of_fetch_error run' (same.fetch_eq.trans failed), same.takeFault none e⟩
  · rw [step_of_not_run run] at h
    cases h
    exact ⟨s', step_of_not_run (same.status_eq ▸ run), same⟩

/-! The sound timer. -/

theorem exec_ret_st (c : Byte) (h : exec .ret s = .next t) :
    exec .ret { s with st := c } = .next { t with st := c } := by
  by_cases entry : s.sp.val ≠ 0
  · rw [exec_ret_ok entry] at h
    cases h
    exact exec_ret_ok (s := { s with st := c }) entry
  · have empty : s.sp = 0 := Fin.ext (not_not.mp entry)
    rw [exec_ret_empty empty] at h
    cases h
    exact exec_ret_empty (s := { s with st := c }) empty

theorem exec_call_st {nnn : Addr} (c : Byte) (h : exec (.call nnn) s = .next t) :
    exec (.call nnn) { s with st := c } = .next { t with st := c } := by
  by_cases room : s.sp.val < 16
  · rw [exec_call_ok room] at h
    cases h
    exact exec_call_ok (s := { s with st := c }) room
  · have full : s.sp = 16 := Fin.ext (by omega)
    rw [exec_call_full full] at h
    cases h
    exact exec_call_full (s := { s with st := c }) full

/-- An instruction that does not write ST leaves what ST it was given. -/
theorem exec_st (c : Byte) (h : exec i s = .next t) (noSt : .st ∉ partsWritten i) :
    exec i { s with st := c } = .next { t with st := c } := by
  by_cases movesSp : .sp ∈ partsWritten i
  · rcases sp_mem_partsWritten.mp movesSp with rfl | ⟨nnn, rfl⟩
    · exact exec_ret_st c h
    · exact exec_call_st c h
  · have stack : t.stack = s.stack := (exec_frame h).parts_same .stack (mt sp_mem_of_stack_mem movesSp)
    have replaced := exec_withUnread (st := c) (stack := s.stack) h noSt movesSp
    have kept : t.withUnread c s.stack = { t with st := c } := by rw [← stack]; rfl
    rw [kept] at replaced
    exact replaced

end

/-- Settles O51: FX18 sets ST from V[X], and no other instruction reads or writes it. -/
theorem noInstructionReadsTheSoundTimer : Obligations.NoInstructionReadsTheSoundTimer := by
  intro i s t c h
  by_cases writesSt : .st ∈ partsWritten i
  · obtain ⟨x, rfl⟩ := st_mem_partsWritten.mp writesSt
    cases h
    exact ⟨s.reg x, rfl⟩
  · exact ⟨c, exec_st c h writesSt⟩

/-- Settles O52: a return reads slot SP - 1, a call writes slot SP before it counts it, and no other instruction has to do
with the stack. -/
theorem freeStackSlotsAreNotObserved : Obligations.FreeStackSlotsAreNotObserved := fun _ _ _ => step_freeSlots

end Sys2Proof.Machine
end
